-- ==== Sys2Proof/Word.lean ====
section
/-! DEFINITION. The two word types of the LS-8 core: the byte of registers, memory cells and operand bytes
(10_state.md R20, 20_memory.md R50), and the nine bits of the program counter (10_state.md R26). -/

namespace Sys2Proof

/-- A register value, a memory cell, an operand byte or a data address: 8 bits, unsigned (R20, R50). -/
abbrev Byte := BitVec 8

/-- A value of the program counter, or a PC-relative fetch address: 9 bits (R26, R53). -/
abbrev PcWord := BitVec 9

end Sys2Proof
end

