-- ==== Sys2Proof/Config.lean ====
section
/-! DEFINITION. What an implementation of the LS-8 core fixes: the parameter OPCODE_MAP with its three
constraints (30_encoding.md R75, 92_eei_decisions.md D8). The map is an argument of the decoder, the encoder
and the cycle; the spec's default map stands in Decode.lean. The spec leaves no value free, so there is no
free value here. -/

namespace Sys2Proof

/-- The 14 mnemonics of the fixed opcode table, in its order (00_scope.md R2, 90_conflicts.md C1). -/
inductive Mnemonic where
  | hlt | ldi | prn | pra | mul | add | push | pop | call | ret | st | jmp | iret | int
deriving DecidableEq, Repr

/-- Every mnemonic once. -/
def Mnemonic.all : List Mnemonic :=
  [.hlt, .ldi, .prn, .pra, .mul, .add, .push, .pop, .call, .ret, .st, .jmp, .iret, .int]

/-- The number of operand bytes the source's table gives each mnemonic (30_encoding.md R72, R75). -/
def Mnemonic.operandCount : Mnemonic → Nat
  | .hlt => 0
  | .ldi => 2
  | .prn => 1
  | .pra => 1
  | .mul => 2
  | .add => 2
  | .push => 1
  | .pop => 1
  | .call => 1
  | .ret => 0
  | .st => 2
  | .jmp => 1
  | .iret => 0
  | .int => 1

/-- The two operand fields of an instruction: A is byte 1, B is byte 2 (30_encoding.md R72, R79). -/
inductive OperandField where
  | A | B
deriving DecidableEq, Repr

/-- A legal OPCODE_MAP: one byte per mnemonic, under the three constraints of D8 (R75). -/
structure OpcodeMap where
  /-- The opcode byte of each mnemonic. -/
  byte : Mnemonic → Byte
  /-- Constraint (i): the three bytes the source gives. -/
  source_bytes : byte .ldi = 0b10000010 ∧ byte .prn = 0b01000111 ∧ byte .hlt = 0b00000001
  /-- Constraint (ii): bits 7:6 are the operand count of the source's table. -/
  count_bits : ∀ op, ((byte op).extractLsb 7 6).toNat = op.operandCount
  /-- Constraint (iii): 14 distinct bytes. -/
  distinct : ∀ op op', byte op = byte op' → op = op'

end Sys2Proof
end

