-- ==== Sys2Proof/Syntax.lean ====
section
/-! DEFINITION. The instructions of the LS-8 core: one constructor per row of spec/opcode_table.json, with its
operand bytes whole (30_encoding.md R72 to R74). A register operand is the byte itself, 0 to 255: the check that
it is below 8 is a step of the cycle (40_execution_cycle.md R105), so an instruction can name an illegal register. -/

namespace Sys2Proof

/-- An instruction with its operand bytes; the docstrings name the rule that gives each its effect. -/
inductive Instr where
  /-- Halt the engine (R120). -/
  | hlt
  /-- Load an immediate into register `r` (R130). -/
  | ldi (r imm : Byte)
  /-- Output register `r` as a decimal number (R121). -/
  | prn (r : Byte)
  /-- Output register `r` as a character (R122). -/
  | pra (r : Byte)
  /-- Unsigned multiply into register `a` (R132). -/
  | mul (a b : Byte)
  /-- Unsigned add into register `a` (R133). -/
  | add (a b : Byte)
  /-- Push register `r` (R140). -/
  | push (r : Byte)
  /-- Pop into register `r` (R141). -/
  | pop (r : Byte)
  /-- Call the subroutine at the address in register `r` (R150). -/
  | call (r : Byte)
  /-- Return from a subroutine (R151). -/
  | ret
  /-- Store register `b` at the address held in register `a` (R142). -/
  | st (a b : Byte)
  /-- Jump to the address in register `r` (R152). -/
  | jmp (r : Byte)
  /-- Restore R6 to R0, FL and PC from the stack (R160). -/
  | iret
  /-- Interrupt request, a no-op; its operand byte is not interpreted (R161). -/
  | int (operand : Byte)
deriving DecidableEq, Repr

/-- The row of the opcode table an instruction belongs to. -/
def Instr.mnemonic : Instr → Mnemonic
  | .hlt => .hlt
  | .ldi _ _ => .ldi
  | .prn _ => .prn
  | .pra _ => .pra
  | .mul _ _ => .mul
  | .add _ _ => .add
  | .push _ => .push
  | .pop _ => .pop
  | .call _ => .call
  | .ret => .ret
  | .st _ _ => .st
  | .jmp _ => .jmp
  | .iret => .iret
  | .int _ => .int

/-- The operand bytes in encoding order: byte 1, then byte 2 (30_encoding.md R72). -/
def Instr.operandBytes : Instr → List Byte
  | .hlt => []
  | .ldi r imm => [r, imm]
  | .prn r => [r]
  | .pra r => [r]
  | .mul a b => [a, b]
  | .add a b => [a, b]
  | .push r => [r]
  | .pop r => [r]
  | .call r => [r]
  | .ret => []
  | .st a b => [a, b]
  | .jmp r => [r]
  | .iret => []
  | .int operand => [operand]

/-- The instruction's length in bytes, `move_pc` (30_encoding.md R70, R71). -/
def Instr.length (i : Instr) : Nat := i.mnemonic.operandCount + 1

/-- The operand fields an instruction uses as register indices, in field order (40_execution_cycle.md R105). -/
def Instr.registerFields : Instr → List (OperandField × Byte)
  | .hlt => []
  | .ldi r _ => [(.A, r)]
  | .prn r => [(.A, r)]
  | .pra r => [(.A, r)]
  | .mul a b => [(.A, a), (.B, b)]
  | .add a b => [(.A, a), (.B, b)]
  | .push r => [(.A, r)]
  | .pop r => [(.A, r)]
  | .call r => [(.A, r)]
  | .ret => []
  | .st a b => [(.A, a), (.B, b)]
  | .jmp r => [(.A, r)]
  | .iret => []
  | .int _ => []

/-- CALL, JMP, RET and IRET set the program counter explicitly (40_execution_cycle.md R108). -/
def Instr.branching : Instr → Bool
  | .call _ => true
  | .ret => true
  | .jmp _ => true
  | .iret => true
  | .hlt => false
  | .ldi _ _ => false
  | .prn _ => false
  | .pra _ => false
  | .mul _ _ => false
  | .add _ _ => false
  | .push _ => false
  | .pop _ => false
  | .st _ _ => false
  | .int _ => false

end Sys2Proof
end

