-- ==== Sys2Proof/WellFormed.lean ====
section
/-! DEFINITION. Well-formed instructions: every operand byte used as a register index is below 8
(30_encoding.md R73, 40_execution_cycle.md R105). An ill-formed instruction can be encoded, fetched and
decoded; running it raises `IllegalRegister` (60_exceptions.md R170). -/

namespace Sys2Proof

/-- The first register field, in the order A then B, whose byte is 8 or more (40_execution_cycle.md R105). -/
def firstIllegal : List (OperandField × Byte) → Option (OperandField × Byte)
  | [] => none
  | f :: rest => if f.2.toNat < 8 then firstIllegal rest else some f

/-- The register field for which the instruction raises `IllegalRegister`, if any. -/
def Instr.illegalField (i : Instr) : Option (OperandField × Byte) := firstIllegal i.registerFields

/-- Every register field of the instruction names one of `x[0]` to `x[7]`. -/
def Instr.wellFormed (i : Instr) : Bool := i.registerFields.all fun f => decide (f.2.toNat < 8)

end Sys2Proof
end

