-- ==== Sys2Proof/Decode.lean ====
section
/-! DEFINITION. Decoding and encoding (30_encoding.md R70 to R77; 40_execution_cycle.md R102 to R104).
`decodeFrom` reads an instruction's bytes one at a time from a supplier, the declared ones only; the machine's
fetch gives it memory from the program counter on, `decodeWith` gives it a list. The opcode map is an argument
(D8); `defaultOpcodeMap` is the spec's default. -/

namespace Sys2Proof

/-! ### The default opcode map -/

/-- The default opcode bytes of 30_encoding.md R75. PRESUMED in the low six bits of eleven rows: the spec takes
those "from general knowledge, not in source" (93_implementation_defined.md G1; log 1). HLT, LDI and PRN are the
source's own. -/
def defaultOpcode : Mnemonic → Byte
  | .hlt => 0b00000001
  | .ldi => 0b10000010
  | .prn => 0b01000111
  | .pra => 0b01001000
  | .mul => 0b10100010
  | .add => 0b10100000
  | .push => 0b01000101
  | .pop => 0b01000110
  | .call => 0b01010000
  | .ret => 0b00010001
  | .st => 0b10000100
  | .jmp => 0b01010100
  | .iret => 0b00010011
  | .int => 0b01010010

/-- The default map meets the three constraints of D8. -/
def defaultOpcodeMap : OpcodeMap where
  byte := defaultOpcode
  source_bytes := by decide
  count_bits op := by cases op <;> decide
  distinct op op' := by cases op <;> cases op' <;> decide

/-! ### Decoding -/

/-- Why bytes are not an instruction. -/
inductive DecodeError where
  /-- The opcode byte is not in the map (R77). -/
  | unrecognized (opcode : Byte)
  /-- Byte `k` of the instruction (0 the opcode, 1 and 2 the operands) is declared and not there. -/
  | missingByte (k : Nat)
deriving DecidableEq, Repr

/-- Recognition: the mnemonic whose byte is exactly the opcode byte, all eight bits compared (R76). -/
def OpcodeMap.recognise (m : OpcodeMap) (opcode : Byte) : Option Mnemonic :=
  Mnemonic.all.find? fun op => m.byte op == opcode

/-- Operand fetch of a one-operand instruction: byte 1 only (40_execution_cycle.md R104). -/
def oneOperand (get : Nat → Option Byte) (mk : Byte → Instr) : Except DecodeError Instr :=
  match get 1 with
  | none => .error (.missingByte 1)
  | some a => .ok (mk a)

/-- Operand fetch of a two-operand instruction: byte 1, then byte 2 (40_execution_cycle.md R104). -/
def twoOperands (get : Nat → Option Byte) (mk : Byte → Byte → Instr) : Except DecodeError Instr :=
  match get 1 with
  | none => .error (.missingByte 1)
  | some a =>
    match get 2 with
    | none => .error (.missingByte 2)
    | some b => .ok (mk a b)

/-- The operand bytes a recognised opcode declares, put into its instruction. -/
def decodeOperands (get : Nat → Option Byte) : Mnemonic → Except DecodeError Instr
  | .hlt => .ok .hlt
  | .ldi => twoOperands get .ldi
  | .prn => oneOperand get .prn
  | .pra => oneOperand get .pra
  | .mul => twoOperands get .mul
  | .add => twoOperands get .add
  | .push => oneOperand get .push
  | .pop => oneOperand get .pop
  | .call => oneOperand get .call
  | .ret => .ok .ret
  | .st => twoOperands get .st
  | .jmp => oneOperand get .jmp
  | .iret => .ok .iret
  | .int => oneOperand get .int

/-- Steps (1) to (3) of the cycle of 40_execution_cycle.md R101 over any supplier of bytes: `get k` is byte `k` of
the instruction, or `none` where there is none. The opcode is recognised before any operand is read. -/
def decodeFrom (m : OpcodeMap) (get : Nat → Option Byte) : Except DecodeError Instr :=
  match get 0 with
  | none => .error (.missingByte 0)
  | some opcode =>
    match m.recognise opcode with
    | none => .error (.unrecognized opcode)
    | some op => decodeOperands get op

/-- Decode the first instruction of a list of bytes, and give the bytes after it. -/
def decodeWith (m : OpcodeMap) (bytes : List Byte) : Except DecodeError (Instr × List Byte) :=
  match decodeFrom m fun k => bytes[k]? with
  | .error e => .error e
  | .ok i => .ok (i, bytes.drop i.length)

/-- Decoding under the default map. -/
def decode (bytes : List Byte) : Except DecodeError (Instr × List Byte) :=
  decodeWith defaultOpcodeMap bytes

/-! ### Encoding -/

/-- The bytes of an instruction: its opcode, then its operand bytes (30_encoding.md R72). -/
def encodeWith (m : OpcodeMap) (i : Instr) : List Byte := m.byte i.mnemonic :: i.operandBytes

/-- Encoding under the default map. -/
def encode (i : Instr) : List Byte := encodeWith defaultOpcodeMap i

/-! ### Table words -/

/-- Byte `k` of a table word of `nbits` bits: bits `8k+7` to `8k`, and zero from `nbits` up. -/
def tableByte (nbits w k : Nat) : Byte := BitVec.ofNat 8 (w % 2 ^ nbits / 256 ^ k)

/-- The three bytes of the longest instruction (30_encoding.md R70), taken from a table word. -/
def tableBytes (nbits w : Nat) : List Byte := [tableByte nbits w 0, tableByte nbits w 1, tableByte nbits w 2]

/-- The instruction the decoder reads from an instruction whose bits are `w`, numbered as
spec/opcode_table.json numbers them (byte 0, the opcode, in bits 7:0). -/
def decodeTableWord (nbits w : Nat) : Option Instr :=
  match decode (tableBytes nbits w) with
  | .ok (i, _) => some i
  | .error _ => none

end Sys2Proof
end

