-- ==== Sys2Proof/Machine/State.lean ====
section
/-! DEFINITION. The state of the LS-8 core (10_state.md), its faults, and the state after reset (R38). Plain data. -/

namespace Sys2Proof.Machine

/-- The names of the eight registers, by index (10_state.md R20). -/
inductive Reg where
  | r0 | r1 | r2 | r3 | r4 | r5 | r6 | r7
deriving DecidableEq, Repr

/-- The register file: `x[0]` to `x[7]`. IM, IS and SP are `r5`, `r6` and `r7` themselves (R20, R21, C4). -/
structure RegFile where
  r0 : Byte
  r1 : Byte
  r2 : Byte
  r3 : Byte
  r4 : Byte
  r5 : Byte
  r6 : Byte
  r7 : Byte
deriving DecidableEq, Repr

/-- The two states of the execution engine (10_state.md R34, 40_execution_cycle.md R100). -/
inductive RunState where
  | running
  | halted
deriving DecidableEq, Repr

/-- The kind of an output event: DEC from PRN, CHR from PRA (10_state.md R36). -/
inductive OutKind where
  | dec
  | chr
deriving DecidableEq, Repr

/-- An output event (10_state.md R36). -/
structure OutEvent where
  kind : OutKind
  value : Byte
deriving DecidableEq, Repr

/-- The three faults of 60_exceptions.md R170, with the information each records. Taking one is a NEXT state, with
`run` HALTED and the record in `fault` (R171, D7): no step ends in `Host.Outcome.fault` (log 2). -/
inductive Fault where
  /-- Raised by the cycle's decode: the byte at `pc` is not in OPCODE_MAP (R103). Safe: the engine halts as the spec
  says. The record depends on the default opcode map, which is unsafe (log 1). -/
  | unrecognizedOpcode (opcode : Byte)
  /-- Raised by PRN, PRA, PUSH, POP, CALL, JMP, LDI (field A) and MUL, ADD, ST (fields A and B): a register operand
  byte is 8 or more (R105). Safe: the engine halts as the spec says (D3 errs toward unprovable). -/
  | illegalRegister (index : Byte) (field : OperandField)
  /-- Raised by the cycle's fetch: the address of the opcode or of a declared operand is 256 or more (R102, R104).
  Safe: the engine halts as the spec says (D5 errs toward unprovable). -/
  | fetchOutOfRange (addr : PcWord)
deriving DecidableEq, Repr

/-- The fault record: the cause with its information, and the faulting instruction's opcode address (R34, R171).
The spec's code is `FaultRecord.code`. -/
structure FaultRecord where
  cause : Fault
  pc : PcWord
deriving DecidableEq, Repr

/-- Reasons for which a step has no meaning. -/
inductive Refusal where
  /-- An instruction without a meaning in this model; raised by no arm of `exec`, since every row of the opcode
  table has its meaning. Safe. -/
  | notModelled (mnemonic : String)
deriving DecidableEq, Repr

/-- Memory as its listed cells: strictly rising addresses below 256, none holding what an unlisted address reads
as (`Memory.wf` in Ops.lean). -/
abbrev Memory := List Host.Cell

/-- Everything 10_state.md gives the machine. The latches IR, opA and opB exist within one cycle only (R35; log 7). -/
structure State where
  /-- The register file (R20). -/
  regs : RegFile
  /-- The program counter (R26). -/
  pc : PcWord
  /-- The flags register FL (R28). -/
  fl : Byte
  /-- The 256-byte memory (20_memory.md R50). -/
  mem : Memory
  /-- The engine state (R34). -/
  run : RunState
  /-- The fault record (R34). -/
  fault : Option FaultRecord
  /-- The output sequence, oldest event first (R36). -/
  out : List OutEvent
deriving DecidableEq, Repr

/-- The machine after reset (10_state.md R38, 70_reset_and_hazards.md R190), invoked: the engine is RUNNING (R192;
log 4). No program is loaded. -/
def State.reset : State where
  regs := { r0 := 0x00, r1 := 0x00, r2 := 0x00, r3 := 0x00, r4 := 0x00, r5 := 0x00, r6 := 0x00, r7 := 0xF4 }
  pc := 0
  fl := 0x00
  mem := []
  run := .running
  fault := none
  out := []

end Sys2Proof.Machine
end

