-- ==== Sys2Proof/Machine/Ops.lean ====
section
/-! DEFINITION. The operations every meaning is built from: memory, registers, the program counter, the stack,
output, halting, taking a fault, the return from interrupt, and the load step. -/

namespace Sys2Proof.Machine

/-! ### Widths -/

/-- Zero extension of a byte to a program-counter value, `zext_9` (00_scope.md R10). -/
def zext9 (b : Byte) : PcWord := b.setWidth 9

/-- A program-counter value `mod 256` (44_control_transfer.md R150, D6). -/
def low8 (p : PcWord) : Byte := p.setWidth 8

/-! ### Memory (20_memory.md) -/

/-- What an unlisted address reads as: the reset contents (10_state.md R38, 90_conflicts.md C7). -/
def Memory.unlisted : Byte := 0x00

/-- The byte at an address (R51). -/
def Memory.read : Memory → Nat → Byte
  | [], _ => Memory.unlisted
  | c :: m, a => if c.1 = a then c.2 else Memory.read m a

/-- Drop every entry of an address. -/
def Memory.erase : Memory → Nat → Memory
  | [], _ => []
  | c :: m, a => if c.1 = a then Memory.erase m a else c :: Memory.erase m a

/-- List an entry before the first entry of a higher address. -/
def Memory.insert : Memory → Nat → Byte → Memory
  | [], a, v => [(a, v)]
  | c :: m, a, v => if a < c.1 then (a, v) :: c :: m else c :: Memory.insert m a v

/-- Set the byte at an address and nothing else (R52), keeping the canonical form. -/
def Memory.write (m : Memory) (a : Nat) (v : Byte) : Memory :=
  if v = Memory.unlisted then m.erase a else (m.erase a).insert a v

/-- Write bytes to ascending addresses from `a` on. -/
def Memory.writeFrom : Memory → Nat → List Byte → Memory
  | m, _, [] => m
  | m, a, v :: vs => Memory.writeFrom (m.write a v) (a + 1) vs

/-- The canonical form: addresses strictly rising, all below 256 (R50), no entry that an unlisted address would
read as. -/
abbrev Memory.wf (m : Memory) : Prop :=
  List.Pairwise (fun c d => c.1 < d.1) m ∧ ∀ c ∈ m, c.1 < 256 ∧ c.2 ≠ Memory.unlisted

/-- `MemRead(a, 1)` at a data address (00_scope.md R11). -/
def State.memRead (s : State) (a : Byte) : Byte := s.mem.read a.toNat

/-- `MemWrite(a, 1, v)` at a data address (00_scope.md R11). -/
def State.memWrite (s : State) (a v : Byte) : State := { s with mem := s.mem.write a.toNat v }

/-! ### Registers (10_state.md R20 to R23) -/

/-- The register's index. -/
def Reg.index : Reg → Nat
  | .r0 => 0
  | .r1 => 1
  | .r2 => 2
  | .r3 => 3
  | .r4 => 4
  | .r5 => 5
  | .r6 => 6
  | .r7 => 7

/-- `x[r]`. -/
def RegFile.get (f : RegFile) : Reg → Byte
  | .r0 => f.r0
  | .r1 => f.r1
  | .r2 => f.r2
  | .r3 => f.r3
  | .r4 => f.r4
  | .r5 => f.r5
  | .r6 => f.r6
  | .r7 => f.r7

/-- `x[r] <- v`. -/
def RegFile.set (f : RegFile) (r : Reg) (v : Byte) : RegFile :=
  match r with
  | .r0 => { f with r0 := v }
  | .r1 => { f with r1 := v }
  | .r2 => { f with r2 := v }
  | .r3 => { f with r3 := v }
  | .r4 => { f with r4 := v }
  | .r5 => { f with r5 := v }
  | .r6 => { f with r6 := v }
  | .r7 => { f with r7 := v }

/-- Read a register; none is hardwired (R22). -/
def State.readReg (s : State) (r : Reg) : Byte := s.regs.get r

/-- Write a register; none is hardwired (R22). -/
def State.writeReg (s : State) (r : Reg) (v : Byte) : State := { s with regs := s.regs.set r v }

/-- SP is `x[7]` (R21, R31). -/
def State.sp (s : State) : Byte := s.readReg .r7

/-- IM is `x[5]` (R21, R29). -/
def State.imReg (s : State) : Byte := s.readReg .r5

/-- IS is `x[6]` (R21, R30). -/
def State.isReg (s : State) : Byte := s.readReg .r6

/-! ### The program-counter sequencer (40_execution_cycle.md R108) -/

/-- `pc <- pc + n`, a 9-bit addition. -/
def State.advance (s : State) (n : Nat) : State := { s with pc := s.pc + BitVec.ofNat 9 n }

/-- `pc <- zext_9(target)`. -/
def State.jump (s : State) (target : Byte) : State := { s with pc := zext9 target }

/-! ### Output and halting (41_machine_control_io.md R120 to R122) -/

/-- `emit(kind, v)`: append an event to the output sequence. -/
def State.emit (s : State) (kind : OutKind) (v : Byte) : State := { s with out := s.out ++ [⟨kind, v⟩] }

/-- `halt()`. -/
def State.halt (s : State) : State := { s with run := .halted }

/-! ### Flags -/

/-- `fl <- v` (10_state.md R28). -/
def State.setFl (s : State) (v : Byte) : State := { s with fl := v }

/-! ### The stack (10_state.md R31, 20_memory.md R60) -/

/-- `SP <- (SP - 1) mod 256`. -/
def State.decSp (s : State) : State := s.writeReg .r7 (s.sp - 1)

/-- `SP <- (SP + 1) mod 256`. -/
def State.incSp (s : State) : State := s.writeReg .r7 (s.sp + 1)

/-- `MemWrite(SP, 1, v)`. -/
def State.storeTop (s : State) (v : Byte) : State := s.memWrite s.sp v

/-- `MemRead(SP, 1)`. -/
def State.top (s : State) : Byte := s.memRead s.sp

/-- Pop into a register: read, write the register, then increment the current SP (43_memory_stack.md R141). -/
def State.popReg (s : State) (r : Reg) : State := (s.writeReg r s.top).incSp

/-- Pop into FL (45_interrupt.md R160). -/
def State.popFl (s : State) : State := (s.setFl s.top).incSp

/-- Pop into the program counter (44_control_transfer.md R151, 45_interrupt.md R160). -/
def State.popPc (s : State) : State := (s.jump s.top).incSp

/-! ### Faults and the return from interrupt -/

/-- The spec's code of a fault (60_exceptions.md R170). -/
def Fault.code : Fault → Nat
  | .unrecognizedOpcode _ => 1
  | .illegalRegister _ _ => 2
  | .fetchOutOfRange _ => 3

/-- The code of a fault record (60_exceptions.md R171). -/
def FaultRecord.code (r : FaultRecord) : Nat := r.cause.code

/-- Taking a fault: the engine halts and records the cause and the program counter; nothing else is written
(60_exceptions.md R171). -/
def State.takeFault (s : State) (f : Fault) : State :=
  { s with run := .halted, fault := some { cause := f, pc := s.pc } }

/-- The return from interrupt: nine pops, R6 down to R0, FL, PC (45_interrupt.md R160, 60_exceptions.md R177). -/
def State.restoreFrame (s : State) : State :=
  ((((((((s.popReg .r6).popReg .r5).popReg .r4).popReg .r3).popReg .r2).popReg .r1).popReg .r0).popFl).popPc

/-! ### The load step and table words -/

/-- The load step, before the first cycle: image bytes to addresses 0, 1, ...; an image of more than 256 bytes is
refused (70_reset_and_hazards.md R191, D11). -/
def State.load (s : State) (image : List Byte) : Option State :=
  if image.length ≤ 256 then some { s with mem := s.mem.writeFrom 0 image } else none

/-- Put an instruction's bytes where the next cycle fetches, with the engine RUNNING. Where they do not fit below
address 256 the program counter is set to 0 (log 12). -/
def State.placeAtFetch (s : State) (bytes : List Byte) : State :=
  let at0 : PcWord := if s.pc.toNat + bytes.length ≤ 256 then s.pc else 0
  { s with run := .running, pc := at0, mem := s.mem.writeFrom at0.toNat bytes }

end Sys2Proof.Machine
end

