-- ==== Sys2Proof/Machine/Operands.lean ====
section
/-! DEFINITION. Register operands: the step (4) check of the cycle (40_execution_cycle.md R101, R105), made by every
instruction that uses an operand byte as a register index, A before B, before it changes any state. -/

namespace Sys2Proof.Machine

/-- The register an operand byte names: 0 to 7, and none from 8 up (30_encoding.md R73). Not masked, not wrapped. -/
def Reg.ofByte? (b : Byte) : Option Reg :=
  match b.toNat with
  | 0 => some .r0
  | 1 => some .r1
  | 2 => some .r2
  | 3 => some .r3
  | 4 => some .r4
  | 5 => some .r5
  | 6 => some .r6
  | 7 => some .r7
  | _ => none

/-- Check operand field `f`, byte `b`; go on with its register, or take `IllegalRegister` (60_exceptions.md R170). -/
def withField (f : OperandField) (b : Byte) (s : State)
    (k : Reg → Host.Outcome State Fault Refusal) : Host.Outcome State Fault Refusal :=
  match Reg.ofByte? b with
  | some r => k r
  | none => .next (s.takeFault (.illegalRegister b f))

/-- A format F1R or F2RI instruction: field A is checked, then the effect happens. -/
def withReg (a : Byte) (s : State) (effect : Reg → State) : Host.Outcome State Fault Refusal :=
  withField .A a s fun r => .next (effect r)

/-- A format F2RR instruction: field A is checked, then field B, then the effect happens. -/
def withRegs (a b : Byte) (s : State) (effect : Reg → Reg → State) : Host.Outcome State Fault Refusal :=
  withField .A a s fun ra => withField .B b s fun rb => .next (effect ra rb)

end Sys2Proof.Machine
end

