-- ==== Sys2Proof/Machine/ControlTransfer.lean ====
section
/-! DEFINITION. CALL, RET and JMP (44_control_transfer.md). -/

namespace Sys2Proof.Machine

/-- The return address a CALL stores: `(pc + 2) mod 256` (R150, D6). -/
def State.returnByte (s : State) : Byte := low8 (s.pc + 2)

/-- CALL r: decrement SP, store the return address, jump to `x[r]` as it is after the decrement (R150, D22). -/
def execCall (r : Byte) (s : State) : Host.Outcome State Fault Refusal :=
  withReg r s fun i => (s.decSp.storeTop s.returnByte).jump (s.decSp.readReg i)

/-- RET: pop into the program counter (R151). -/
def execRet (s : State) : Host.Outcome State Fault Refusal := .next s.popPc

/-- JMP r: jump to `x[r]` (R152). -/
def execJmp (r : Byte) (s : State) : Host.Outcome State Fault Refusal :=
  withReg r s fun i => s.jump (s.readReg i)

end Sys2Proof.Machine
end

