-- ==== Sys2Proof/Machine/Interrupt.lean ====
section
/-! DEFINITION. IRET and INT (45_interrupt.md). Nothing delivers an interrupt (D1). -/

namespace Sys2Proof.Machine

/-- IRET: restore R6 to R0, FL and PC from the stack; it re-enables nothing (R160, 60_exceptions.md R177). -/
def execIret (s : State) : Host.Outcome State Fault Refusal := .next s.restoreFrame

/-- INT: no operation; the operand byte is fetched, not interpreted, not checked (R161, D2). -/
def execInt (_operand : Byte) (s : State) : Host.Outcome State Fault Refusal := .next (s.advance 2)

end Sys2Proof.Machine
end

