-- ==== Sys2Proof/Machine/MachineControl.lean ====
section
/-! DEFINITION. HLT, PRN and PRA (41_machine_control_io.md). -/

namespace Sys2Proof.Machine

/-- HLT: halt, then advance by 1 like any non-branching instruction (R120, D23). -/
def execHlt (s : State) : Host.Outcome State Fault Refusal := .next (s.halt.advance 1)

/-- PRN r: emit `(DEC, x[r])` (R121). -/
def execPrn (r : Byte) (s : State) : Host.Outcome State Fault Refusal :=
  withReg r s fun i => (s.emit .dec (s.readReg i)).advance 2

/-- PRA r: emit `(CHR, x[r])`, every byte as it is (R122). -/
def execPra (r : Byte) (s : State) : Host.Outcome State Fault Refusal :=
  withReg r s fun i => (s.emit .chr (s.readReg i)).advance 2

end Sys2Proof.Machine
end

