-- ==== Sys2Proof/Machine/MemoryStack.lean ====
section
/-! DEFINITION. PUSH, POP and ST (43_memory_stack.md). -/

namespace Sys2Proof.Machine

/-- PUSH r: decrement SP, then store `x[r]` as it is after the decrement (R140, D22). -/
def execPush (r : Byte) (s : State) : Host.Outcome State Fault Refusal :=
  withReg r s fun i => (s.decSp.storeTop (s.decSp.readReg i)).advance 2

/-- POP r: `x[r] <- MemRead(SP, 1)`, then increment the current SP (R141, D22). -/
def execPop (r : Byte) (s : State) : Host.Outcome State Fault Refusal :=
  withReg r s fun i => (s.popReg i).advance 2

/-- ST a, b: `MemWrite(x[a], 1, x[b])` (R142). -/
def execSt (a b : Byte) (s : State) : Host.Outcome State Fault Refusal :=
  withRegs a b s fun i j => (s.memWrite (s.readReg i) (s.readReg j)).advance 3

end Sys2Proof.Machine
end

