-- ==== Sys2Proof/Machine/Flags.lean ====
section
/-! DEFINITION. The flags register. The spec defines no field of FL and no instruction computes or reads a flag
(10_state.md R28, 42_register_alu.md R131, D19): the one access to FL is the byte IRET pops, `State.setFl` in
Ops.lean. What stands here is the ALU, whose whole result is a byte: no carry, overflow or zero flag is kept. -/

namespace Sys2Proof.Machine

/-- ADD: the exact unsigned sum `mod 256` (R131). -/
def aluAdd (x y : Byte) : Byte := BitVec.ofNat 8 (x.toNat + y.toNat)

/-- MUL: the low 8 bits of the exact unsigned product (R131; 200 * 200 gives 64, 90_conflicts.md C2). -/
def aluMul (x y : Byte) : Byte := BitVec.ofNat 8 (x.toNat * y.toNat)

end Sys2Proof.Machine
end

