-- ==== Sys2Proof/Machine/RegisterAlu.lean ====
section
/-! DEFINITION. LDI, MUL and ADD (42_register_alu.md). -/

namespace Sys2Proof.Machine

/-- LDI r, imm: `x[r] <- imm`, unextended (R130, 30_encoding.md R74). -/
def execLdi (r imm : Byte) (s : State) : Host.Outcome State Fault Refusal :=
  withReg r s fun i => (s.writeReg i imm).advance 3

/-- MUL a, b: both operands are read, then `x[a]` is written (R131, R132). -/
def execMul (a b : Byte) (s : State) : Host.Outcome State Fault Refusal :=
  withRegs a b s fun i j => (s.writeReg i (aluMul (s.readReg i) (s.readReg j))).advance 3

/-- ADD a, b: both operands are read, then `x[a]` is written (R131, R133). -/
def execAdd (a b : Byte) (s : State) : Host.Outcome State Fault Refusal :=
  withRegs a b s fun i j => (s.writeReg i (aluAdd (s.readReg i) (s.readReg j))).advance 3

end Sys2Proof.Machine
end

