-- ==== Sys2Proof/Machine/Dispatch.lean ====
section
/-! DEFINITION. Dispatch: one arm per instruction (40_execution_cycle.md R106). -/

namespace Sys2Proof.Machine

def exec (i : Instr) (s : State) : Host.Outcome State Fault Refusal :=
  match i with
  | .hlt => Sys2Proof.Machine.execHlt s
  | .ldi r imm => Sys2Proof.Machine.execLdi r imm s
  | .prn r => Sys2Proof.Machine.execPrn r s
  | .pra r => Sys2Proof.Machine.execPra r s
  | .mul a b => Sys2Proof.Machine.execMul a b s
  | .add a b => Sys2Proof.Machine.execAdd a b s
  | .push r => Sys2Proof.Machine.execPush r s
  | .pop r => Sys2Proof.Machine.execPop r s
  | .call r => Sys2Proof.Machine.execCall r s
  | .ret => Sys2Proof.Machine.execRet s
  | .st a b => Sys2Proof.Machine.execSt a b s
  | .jmp r => Sys2Proof.Machine.execJmp r s
  | .iret => Sys2Proof.Machine.execIret s
  | .int operand => Sys2Proof.Machine.execInt operand s

end Sys2Proof.Machine
end

