-- ==== Sys2Proof/Machine/Cycle.lean ====
section
/-! DEFINITION. The fetch-decode-execute cycle (40_execution_cycle.md R100 to R104), for any opcode map. No value of
IM or IS is looked at: the reference's interrupt-status check is left out (R107, D10). -/

namespace Sys2Proof.Machine

/-- The byte at a PC-relative address, or none from 256 up (R102, R104, 20_memory.md R54). -/
def State.fetchByte? (s : State) (a : PcWord) : Option Byte :=
  if a.toNat < 256 then some (s.mem.read a.toNat) else none

/-- The address of byte `k` of the instruction at the program counter (20_memory.md R55). -/
def State.fetchAddr (s : State) (k : Nat) : PcWord := s.pc + BitVec.ofNat 9 k

/-- The fault a decode error is, at the program counter `pc` of the instruction (R102 to R104). -/
def faultOfDecodeError (s : State) : DecodeError → Fault
  | .unrecognized opcode => .unrecognizedOpcode opcode
  | .missingByte k => .fetchOutOfRange (s.fetchAddr k)

/-- Steps (1) to (3) of the cycle: fetch, recognition, operand fetch (R101). -/
def State.fetch (s : State) (m : OpcodeMap) : Except Fault Instr :=
  match decodeFrom m fun k => s.fetchByte? (s.fetchAddr k) with
  | .error e => .error (faultOfDecodeError s e)
  | .ok i => .ok i

/-- One cycle, while RUNNING (R101). -/
def cycle (m : OpcodeMap) (s : State) : Host.Outcome State Fault Refusal :=
  match s.fetch m with
  | .error f => .next (s.takeFault f)
  | .ok i => exec i s

/-- The engine: a cycle while RUNNING; HALTED performs no cycle and changes no state (R100; log 3). -/
def engine (m : OpcodeMap) (s : State) : Host.Outcome State Fault Refusal :=
  match s.run with
  | .running => cycle m s
  | .halted => .next s

end Sys2Proof.Machine
end

