-- ==== Sys2Proof/Machine/Step.lean ====
section
/-! DEFINITION. The step of the machine under the default opcode map, and the placing of a table word where the
next step fetches. -/

namespace Sys2Proof.Machine

/-- One step (40_execution_cycle.md R100, R101) under the default OPCODE_MAP (30_encoding.md R75; log 1). -/
def step (s : State) : Host.Outcome State Fault Refusal := engine defaultOpcodeMap s

/-- The state with the instruction whose bits are `w` stored where the next step fetches (log 12). -/
def State.withFetchWord (s : State) (nbits w : Nat) : State := s.placeAtFetch (tableBytes nbits w)

end Sys2Proof.Machine
end

