-- ==== Sys2Proof/Safety.lean ====
section
/-! DEFINITION. What the statements say about runs: how a run ends (60_exceptions.md R184), when a fault record is
true of the state that holds it, and the machine's invariant. -/

namespace Sys2Proof.Machine

/-- The run has ended normally: HALTED without a fault record (R184). -/
def State.endedNormally (s : State) : Prop := s.run = .halted ∧ s.fault = none

/-- The run has ended with a fault (R184). -/
def State.endedByFault (s : State) : Prop := s.run = .halted ∧ s.fault ≠ none

/-- Run instructions one after another, stopping at the first fault or refusal: what a straight-line program does to
the state, its fetches left aside. -/
def execAll : List Instr → State → Host.Outcome State Fault Refusal
  | [], s => .next s
  | i :: is, s =>
    match exec i s with
    | .next t => execAll is t
    | .fault f => .fault f
    | .refused r => .refused r

/-- The bytes of the instruction stand at the program counter, all below address 256 (20_memory.md R55). -/
def State.HoldsAtPc (s : State) (m : OpcodeMap) (i : Instr) : Prop :=
  ∀ k (h : k < (encodeWith m i).length),
    s.pc.toNat + k < 256 ∧ s.mem.read (s.pc.toNat + k) = (encodeWith m i)[k]

/-- `addr` is the first address of 256 or more that the cycle fetches from: the opcode's, or that of an operand the
mapped opcode at `pc` DECLARES, every byte before it being in range (40_execution_cycle.md R102, R104). -/
def State.FetchesOutOfRange (m : OpcodeMap) (s : State) (addr : PcWord) : Prop :=
  256 ≤ addr.toNat ∧
  (addr = s.pc ∨
    ∃ op k, s.pc.toNat < 256 ∧ s.mem.read s.pc.toNat = m.byte op ∧ 1 ≤ k ∧ k ≤ op.operandCount ∧
      addr.toNat = s.pc.toNat + k ∧ s.pc.toNat + k - 1 < 256)

/-- The condition of a fault (60_exceptions.md R170), read off a state whose program counter is at the faulting
instruction: an unmapped opcode byte; a byte of 8 or more in the first illegal REGISTER field of the instruction that
stands there (40_execution_cycle.md R105); an out-of-range fetch of the opcode or of a declared operand. -/
def Fault.TrueOf (m : OpcodeMap) (s : State) : Fault → Prop
  | .unrecognizedOpcode opcode =>
    s.pc.toNat < 256 ∧ s.mem.read s.pc.toNat = opcode ∧ ∀ op, m.byte op ≠ opcode
  | .illegalRegister index field =>
    8 ≤ index.toNat ∧ ∃ i, s.HoldsAtPc m i ∧ i.illegalField = some (field, index)
  | .fetchOutOfRange addr => s.FetchesOutOfRange m addr

/-- What holds of the machine between steps: the memory is canonical, the program counter is one the rules can
reach (10_state.md R26), and a fault record stands only in a HALTED machine and is true of it (60_exceptions.md
R171, R172). -/
structure State.Inv (m : OpcodeMap) (s : State) : Prop where
  mem_wf : s.mem.wf
  pc_le : s.pc.toNat ≤ 258
  fault_halted : s.fault ≠ none → s.run = .halted
  fault_true : ∀ r, s.fault = some r → r.pc = s.pc ∧ r.cause.TrueOf m s

end Sys2Proof.Machine
end

