-- ==== Sys2Proof/Certificates/Slice0/Obligations.lean ====
section
/-! DEFINITION. The statements about the LS-8 core, for the provers. `m` is any legal OPCODE_MAP (92_eei_decisions.md
D8); `step` uses the default map (log 1). Where a statement rests on a decision of the spec or on a row of the
assumption log, its docstring says which. -/

open Sys2Proof Sys2Proof.Machine

/-! ### Encoding -/

/-- Each word is written out from the spec's encodings (30_encoding.md, the opcode map and the formats). The bytes of
HLT, LDI and PRN are source-given; the low six bits of the other eleven are the default of OPCODE_MAP, the spec's
general knowledge (93_implementation_defined.md G1; log 1). -/
def Obligations.WordsOfTheOpcodeTableDecode : Prop :=
  decode [0b00000001] = .ok (.hlt, []) ∧
  decode [0b10000010, 0, 8] = .ok (.ldi 0 8, []) ∧
  decode [0b01000111, 0] = .ok (.prn 0, []) ∧
  decode [0b01001000, 1] = .ok (.pra 1, []) ∧
  decode [0b10100010, 2, 3] = .ok (.mul 2 3, []) ∧
  decode [0b10100000, 2, 3] = .ok (.add 2 3, []) ∧
  decode [0b01000101, 4] = .ok (.push 4, []) ∧
  decode [0b01000110, 5] = .ok (.pop 5, []) ∧
  decode [0b01010000, 6] = .ok (.call 6, []) ∧
  decode [0b00010001] = .ok (.ret, []) ∧
  decode [0b10000100, 2, 3] = .ok (.st 2 3, []) ∧
  decode [0b01010100, 7] = .ok (.jmp 7, []) ∧
  decode [0b00010011] = .ok (.iret, []) ∧
  decode [0b01010010, 0xFF] = .ok (.int 0xFF, [])

/-- Decoding an encoded instruction gives it back with every operand byte at every value, and leaves exactly the bytes
after it, for every legal opcode map. -/
def Obligations.DecodeOfEncodeGivesTheInstruction : Prop :=
  ∀ (m : OpcodeMap) (i : Instr) (rest : List Byte), decodeWith m (encodeWith m i ++ rest) = .ok (i, rest)

/-- Bytes that decode to an instruction are its encoding: no instruction has two encodings and no other bytes decode
to it. -/
def Obligations.DecodedBytesAreTheEncoding : Prop :=
  ∀ (m : OpcodeMap) (bytes rest : List Byte) (i : Instr),
    decodeWith m bytes = .ok (i, rest) → bytes = encodeWith m i ++ rest

/-- R71. -/
def Obligations.OpcodeBitsGiveTheLength : Prop :=
  ∀ m : OpcodeMap,
    (∀ i : Instr,
      i.operandBytes.length = ((m.byte i.mnemonic).extractLsb 7 6).toNat ∧
      (encodeWith m i).length = ((m.byte i.mnemonic).extractLsb 7 6).toNat + 1 ∧
      i.length = (encodeWith m i).length) ∧
    (∀ op, ((m.byte op).extractLsb 7 6).toNat ∈ [0, 1, 2]) ∧
    (∀ (opcode : Byte) (rest : List Byte), (opcode.extractLsb 7 6).toNat = 3 →
      decodeWith m (opcode :: rest) = .error (.unrecognized opcode)) ∧
    (∀ (opcode : Byte) (more rest : List Byte) (i : Instr), decodeWith m (opcode :: more) = .ok (i, rest) →
      i.length = (opcode.extractLsb 7 6).toNat + 1 ∧
      rest = (opcode :: more).drop ((opcode.extractLsb 7 6).toNat + 1))

/-- 30_encoding.md, section 4: exact match only, and 242 of the 256 values are unrecognized under the default map
(log 1). -/
def Obligations.OpcodesOutsideTheMapAreUnrecognized : Prop :=
  (∀ (m : OpcodeMap) (opcode : Byte) (rest : List Byte),
    decodeWith m (opcode :: rest) = .error (.unrecognized opcode) ↔ ∀ op, m.byte op ≠ opcode) ∧
  ((List.range 256).filter fun n => (defaultOpcodeMap.recognise (BitVec.ofNat 8 n)).isNone).length = 242

/-- 30_encoding.md, section 2: indices 0 to 7 name `x[0]` to `x[7]`; 8 to 255 name none (D3). -/
def Obligations.OperandBytesNameRegisters : Prop :=
  ∀ b : Byte, (∀ q : Reg, Reg.ofByte? b = some q ↔ b.toNat = q.index) ∧ (Reg.ofByte? b = none ↔ 8 ≤ b.toNat)

/-! ### Memory -/

/-- 20_memory.md, section 5: a read returns the value of the most recent write to its address, and the byte that was
there before the writes if there is none. -/
def Obligations.ReadReturnsTheMostRecentWrite : Prop :=
  ∀ (s : State) (writes : List (Byte × Byte)) (a : Byte),
    (writes.foldl (fun t w => t.memWrite w.1 w.2) s).memRead a =
      match writes.reverse.find? fun w => w.1 == a with
      | some w => w.2
      | none => s.memRead a

/-- The canonical form is one: two memories in it that hold the same 256 bytes are the same list of cells. -/
def Obligations.CanonicalMemoriesWithTheSameBytesAreEqual : Prop :=
  ∀ m m' : Memory, m.wf → m'.wf → (∀ a, a < 256 → m.read a = m'.read a) → m = m'

/-! ### Each instruction: where it completes, its result and its frame -/

/-- 41_machine_control_io.md, HLT. The advance of `pc` is the spec's decision D23. -/
def Obligations.HltHaltsWithoutAFault : Prop :=
  ∀ s : State, exec .hlt s = .next { s with run := .halted, pc := s.pc + 1 }

/-- 41_machine_control_io.md, PRN and PRA: one event more, at the end, and nothing else but `pc`. -/
def Obligations.PrnAndPraEmitTheRegister : Prop :=
  ∀ (s : State) (r : Byte) (q : Reg), Reg.ofByte? r = some q →
    exec (.prn r) s = .next { s with out := s.out ++ [⟨.dec, s.readReg q⟩], pc := s.pc + 2 } ∧
    exec (.pra r) s = .next { s with out := s.out ++ [⟨.chr, s.readReg q⟩], pc := s.pc + 2 }

/-- 42_register_alu.md, LDI: every register but the named one keeps its value. -/
def Obligations.LdiLoadsTheImmediate : Prop :=
  ∀ (s : State) (r imm : Byte) (q : Reg), Reg.ofByte? r = some q →
    ∃ t, exec (.ldi r imm) s = .next t ∧
      (∀ p, t.readReg p = if p = q then imm else s.readReg p) ∧ t.pc = s.pc + 3 ∧
      t.fl = s.fl ∧ t.mem = s.mem ∧ t.run = s.run ∧ t.fault = s.fault ∧ t.out = s.out

/-- 42_register_alu.md, ADD and MUL, the ALU laws: exact unsigned results `mod 256`, both operands read first (also
when `a = b`), only register A written, no flag. -/
def Obligations.AddAndMulWriteOnlyRegisterA : Prop :=
  ∀ (s : State) (a b : Byte) (i j : Reg), Reg.ofByte? a = some i → Reg.ofByte? b = some j →
    (∃ t, exec (.add a b) s = .next t ∧
      (t.readReg i).toNat = ((s.readReg i).toNat + (s.readReg j).toNat) % 256 ∧
      (∀ p, p ≠ i → t.readReg p = s.readReg p) ∧ t.pc = s.pc + 3 ∧
      t.fl = s.fl ∧ t.mem = s.mem ∧ t.run = s.run ∧ t.fault = s.fault ∧ t.out = s.out) ∧
    (∃ t, exec (.mul a b) s = .next t ∧
      (t.readReg i).toNat = ((s.readReg i).toNat * (s.readReg j).toNat) % 256 ∧
      (∀ p, p ≠ i → t.readReg p = s.readReg p) ∧ t.pc = s.pc + 3 ∧
      t.fl = s.fl ∧ t.mem = s.mem ∧ t.run = s.run ∧ t.fault = s.fault ∧ t.out = s.out)

/-- 43_memory_stack.md, PUSH: the byte goes to the decremented SP, and PUSH R7 stores the decremented SP itself (D22).
SP and one byte of memory change. -/
def Obligations.PushStoresBelowTheStackTop : Prop :=
  ∀ (s : State) (r : Byte) (q : Reg), Reg.ofByte? r = some q →
    ∃ t, exec (.push r) s = .next t ∧ t.sp = s.sp - 1 ∧
      t.memRead (s.sp - 1) = (if q = .r7 then s.sp - 1 else s.readReg q) ∧
      (∀ a, a ≠ s.sp - 1 → t.memRead a = s.memRead a) ∧
      (∀ p, p ≠ .r7 → t.readReg p = s.readReg p) ∧ t.pc = s.pc + 2 ∧
      t.fl = s.fl ∧ t.run = s.run ∧ t.fault = s.fault ∧ t.out = s.out

/-- 43_memory_stack.md, POP: the byte at SP goes to the register, then the current SP is incremented, so POP R7 leaves
SP at the popped byte plus one (D22). Memory is not written (C5). -/
def Obligations.PopReadsTheStackTop : Prop :=
  ∀ (s : State) (r : Byte) (q : Reg), Reg.ofByte? r = some q →
    ∃ t, exec (.pop r) s = .next t ∧
      (q ≠ .r7 → t.readReg q = s.memRead s.sp ∧ t.sp = s.sp + 1) ∧
      (q = .r7 → t.sp = s.memRead s.sp + 1) ∧
      (∀ p, p ≠ q → p ≠ .r7 → t.readReg p = s.readReg p) ∧ t.pc = s.pc + 2 ∧
      t.fl = s.fl ∧ t.mem = s.mem ∧ t.run = s.run ∧ t.fault = s.fault ∧ t.out = s.out

/-- 43_memory_stack.md, ST: the byte of register B goes to the address held in register A, and no other byte and no
register changes. -/
def Obligations.StStoresAtTheAddressInRegisterA : Prop :=
  ∀ (s : State) (a b : Byte) (i j : Reg), Reg.ofByte? a = some i → Reg.ofByte? b = some j →
    ∃ t, exec (.st a b) s = .next t ∧ t.memRead (s.readReg i) = s.readReg j ∧
      (∀ c, c ≠ s.readReg i → t.memRead c = s.memRead c) ∧ t.regs = s.regs ∧ t.pc = s.pc + 3 ∧
      t.fl = s.fl ∧ t.run = s.run ∧ t.fault = s.fault ∧ t.out = s.out

/-- 44_control_transfer.md, CALL: the return byte `(pc + 2) mod 256` (D6) goes to the decremented SP, and the target
is the register as it is after the decrement (CALL R7, D22). -/
def Obligations.CallStoresTheReturnAddressAndJumps : Prop :=
  ∀ (s : State) (r : Byte) (q : Reg), Reg.ofByte? r = some q →
    ∃ t, exec (.call r) s = .next t ∧ t.sp = s.sp - 1 ∧
      (t.memRead (s.sp - 1)).toNat = (s.pc.toNat + 2) % 256 ∧
      (∀ a, a ≠ s.sp - 1 → t.memRead a = s.memRead a) ∧
      t.pc.toNat = (if q = .r7 then s.sp - 1 else s.readReg q).toNat ∧
      (∀ p, p ≠ .r7 → t.readReg p = s.readReg p) ∧
      t.fl = s.fl ∧ t.run = s.run ∧ t.fault = s.fault ∧ t.out = s.out

/-- 44_control_transfer.md, RET: `pc` is the byte at SP, SP one higher, memory as it was (C5). -/
def Obligations.RetPopsTheProgramCounter : Prop :=
  ∀ s : State, ∃ t, exec .ret s = .next t ∧ t.pc.toNat = (s.memRead s.sp).toNat ∧ t.sp = s.sp + 1 ∧
    (∀ p, p ≠ .r7 → t.readReg p = s.readReg p) ∧
    t.fl = s.fl ∧ t.mem = s.mem ∧ t.run = s.run ∧ t.fault = s.fault ∧ t.out = s.out

/-- 44_control_transfer.md, JMP: only `pc` changes. -/
def Obligations.JmpChangesOnlyTheProgramCounter : Prop :=
  ∀ (s : State) (r : Byte) (q : Reg), Reg.ofByte? r = some q →
    ∃ t, exec (.jmp r) s = .next t ∧ t.pc.toNat = (s.readReg q).toNat ∧ t = { s with pc := t.pc }

/-- 45_interrupt.md, IRET: the nine bytes from SP up, `mod 256`, go to R6 down to R0, FL and PC; SP is nine higher and
never loaded from the frame. -/
def Obligations.IretRestoresTheFrame : Prop :=
  ∀ s : State, ∃ t, exec .iret s = .next t ∧
    t.readReg .r6 = s.memRead s.sp ∧ t.readReg .r5 = s.memRead (s.sp + 1) ∧
    t.readReg .r4 = s.memRead (s.sp + 2) ∧ t.readReg .r3 = s.memRead (s.sp + 3) ∧
    t.readReg .r2 = s.memRead (s.sp + 4) ∧ t.readReg .r1 = s.memRead (s.sp + 5) ∧
    t.readReg .r0 = s.memRead (s.sp + 6) ∧ t.fl = s.memRead (s.sp + 7) ∧
    t.pc.toNat = (s.memRead (s.sp + 8)).toNat ∧ t.sp = s.sp + 9 ∧
    t.mem = s.mem ∧ t.run = s.run ∧ t.fault = s.fault ∧ t.out = s.out

/-- 45_interrupt.md, INT: whatever its operand byte, only `pc` moves (the spec's decision D2). -/
def Obligations.IntOnlyAdvances : Prop :=
  ∀ (s : State) (operand : Byte), exec (.int operand) s = .next { s with pc := s.pc + 2 }

/-! ### Faults -/

/-- 40_execution_cycle.md, the register fields of step (4), and 60_exceptions.md, IllegalRegister: each instruction's
checked fields, A before B, and the fault before any effect (the spec's decision D3). -/
def Obligations.IllegalRegisterComesBeforeAnyEffect : Prop :=
  ∀ s : State,
    (∀ r : Byte, 8 ≤ r.toNat → ∀ i ∈ [Instr.prn r, .pra r, .push r, .pop r, .call r, .jmp r],
      exec i s = .next { s with run := .halted, fault := some ⟨.illegalRegister r .A, s.pc⟩ }) ∧
    (∀ r imm : Byte, 8 ≤ r.toNat →
      exec (.ldi r imm) s = .next { s with run := .halted, fault := some ⟨.illegalRegister r .A, s.pc⟩ }) ∧
    (∀ a b : Byte, 8 ≤ a.toNat → ∀ i ∈ [Instr.mul a b, .add a b, .st a b],
      exec i s = .next { s with run := .halted, fault := some ⟨.illegalRegister a .A, s.pc⟩ }) ∧
    (∀ a b : Byte, a.toNat < 8 → 8 ≤ b.toNat → ∀ i ∈ [Instr.mul a b, .add a b, .st a b],
      exec i s = .next { s with run := .halted, fault := some ⟨.illegalRegister b .B, s.pc⟩ })

/-- A well-formed instruction always completes and raises nothing; an ill-formed one records exactly its first illegal
field (40_execution_cycle.md, section 1; decision D3). -/
def Obligations.OnlyIllFormedInstructionsFault : Prop :=
  ∀ (i : Instr) (s : State), ∃ t, exec i s = .next t ∧
    (i.wellFormed = true → i.illegalField = none ∧ t.fault = s.fault) ∧
    (i.wellFormed = false → ∃ f b, i.illegalField = some (f, b) ∧ 8 ≤ b.toNat ∧
      t = { s with run := .halted, fault := some ⟨.illegalRegister b f, s.pc⟩ })

/-- 60_exceptions.md, section 2: the four ranks of the fault order (decisions D3, D5, D17). -/
def Obligations.FaultsFollowTheOrderOfTheCycle : Prop :=
  ∀ (m : OpcodeMap) (s : State), s.run = .running →
    (256 ≤ s.pc.toNat →
      engine m s = .next { s with run := .halted, fault := some ⟨.fetchOutOfRange s.pc, s.pc⟩ }) ∧
    (s.pc.toNat < 256 → (∀ op, m.byte op ≠ s.mem.read s.pc.toNat) →
      engine m s =
        .next { s with run := .halted, fault := some ⟨.unrecognizedOpcode (s.mem.read s.pc.toNat), s.pc⟩ }) ∧
    (∀ op, s.pc = 255 → s.mem.read 255 = m.byte op → 1 ≤ op.operandCount →
      engine m s = .next { s with run := .halted, fault := some ⟨.fetchOutOfRange 256, 255⟩ }) ∧
    (∀ op, s.pc = 254 → s.mem.read 254 = m.byte op → op.operandCount = 2 →
      engine m s = .next { s with run := .halted, fault := some ⟨.fetchOutOfRange 256, 254⟩ }) ∧
    (∀ i f b, s.HoldsAtPc m i → i.illegalField = some (f, b) →
      engine m s = .next { s with run := .halted, fault := some ⟨.illegalRegister b f, s.pc⟩ })

/-- R103: recognition comes first, at address 255 too, and a recognised byte gives the length. -/
def Obligations.RecognitionComesBeforeOperandFetch : Prop :=
  ∀ (m : OpcodeMap) (s : State), s.run = .running → s.pc.toNat < 256 →
    ((∀ op, m.byte op ≠ s.mem.read s.pc.toNat) →
      engine m s =
        .next { s with run := .halted, fault := some ⟨.unrecognizedOpcode (s.mem.read s.pc.toNat), s.pc⟩ }) ∧
    (∀ op, m.byte op = s.mem.read s.pc.toNat →
      op.operandCount = ((s.mem.read s.pc.toNat).extractLsb 7 6).toNat ∧
      ∀ i, s.fetch m = .ok i → i.mnemonic = op ∧
        i.operandBytes.length = ((s.mem.read s.pc.toNat).extractLsb 7 6).toNat ∧
        i.length = ((s.mem.read s.pc.toNat).extractLsb 7 6).toNat + 1)

/-- 60_exceptions.md, section 1: a faulting cycle writes nothing but the engine state and the record, and the record
holds the faulting instruction's address (decision D7; that it is a next state is log 2). The recorded cause's
condition, `Fault.TrueOf`, is that of the table there: the opcode byte is unmapped; or the byte is 8 or more and is the
first illegal register field of the instruction at `pc` (40_execution_cycle.md, the register fields checked); or the
address is 256 or more and is `pc`, or that of an operand the opcode at `pc` declares, with every byte before it in
range. -/
def Obligations.FaultsArePrecise : Prop :=
  ∀ (m : OpcodeMap) (s t : State), s.run = .running → s.fault = none → engine m s = .next t → t.fault ≠ none →
    ∃ f, f.TrueOf m s ∧ t = { s with run := .halted, fault := some ⟨f, s.pc⟩ }

/-- R172. -/
def Obligations.FaultRecordsAreNeverCleared : Prop :=
  (∀ (s : State) (r : FaultRecord), s.Inv defaultOpcodeMap → s.fault = some r →
    ∀ k, Host.Core.run Sys2Proof.core k s = .next s) ∧
  (∀ (s t : State) (r : FaultRecord), s.run = .running → s.fault = none → step s = .next t → t.fault = some r →
    ∀ k, Host.Core.run Sys2Proof.core k t = .next t)

/-! ### The engine -/

/-- 40_execution_cycle.md, section 1: when the bytes at the program counter are an instruction, a RUNNING step is that
instruction. Nothing else is done around it: the meanings move the program counter themselves. -/
def Obligations.StepRunsTheInstructionAtThePc : Prop :=
  (∀ (m : OpcodeMap) (s : State) (i : Instr), s.run = .running → s.HoldsAtPc m i → engine m s = exec i s) ∧
  (∀ (s : State) (i : Instr), s.run = .running → s.HoldsAtPc defaultOpcodeMap i → step s = exec i s)

/-- R100. That State.reset is the invoked engine is log 4; that a step of a HALTED engine answers the same state is
log 3. -/
def Obligations.OnlyHltOrAFaultHalts : Prop :=
  State.reset.run = .running ∧
  (∀ (m : OpcodeMap) (s : State), s.run = .halted → engine m s = .next s) ∧
  (∀ (m : OpcodeMap) (s : State), s.run = .running → engine m s = cycle m s) ∧
  (∀ (m : OpcodeMap) (s t : State), s.run = .running → s.fault = none → engine m s = .next t → t.run = .halted →
    (s.fetch m = .ok .hlt ∧ t.fault = none) ∨ t.fault ≠ none)

/-- 60_exceptions.md, section 6: the cycle that ends a run ends it normally exactly when its instruction is HLT, and
otherwise by one fault whose condition held (that faults are next states is log 2). -/
def Obligations.RunsEndNormallyOnlyByHlt : Prop :=
  ∀ (m : OpcodeMap) (s t : State), s.run = .running → s.fault = none → engine m s = .next t →
    (t.endedNormally ↔ s.fetch m = .ok .hlt) ∧
    (t.endedByFault ↔ ∃ f, f.TrueOf m s ∧ t = { s with run := .halted, fault := some ⟨f, s.pc⟩ })

/-- Every step answers a next state: no cycle is without a meaning, and faults are next states (log 2, log 3). -/
def Obligations.EveryStepAnswersANextState : Prop :=
  ∀ (m : OpcodeMap) (s : State), ∃ t, engine m s = .next t

/-- R108, with the table's rows written out. -/
def Obligations.ProgramCounterAfterEachInstruction : Prop :=
  (∀ (i : Instr) (s t : State), s.pc.toNat < 256 → i.wellFormed = true → exec i s = .next t →
    (i.branching = false → t.pc.toNat = s.pc.toNat + i.length) ∧
    (i = .hlt → t.pc.toNat = s.pc.toNat + 1) ∧
    (∀ a b, i ∈ [.ldi a b, .mul a b, .add a b, .st a b] → t.pc.toNat = s.pc.toNat + 3) ∧
    (∀ r, i ∈ [.prn r, .pra r, .push r, .pop r, .int r] → t.pc.toNat = s.pc.toNat + 2) ∧
    (∀ r q, i = .call r → Reg.ofByte? r = some q → t.pc.toNat = (s.decSp.readReg q).toNat) ∧
    (∀ r q, i = .jmp r → Reg.ofByte? r = some q → t.pc.toNat = (s.readReg q).toNat) ∧
    (i = .ret → t.pc.toNat = (s.memRead s.sp).toNat) ∧
    (i = .iret → t.pc.toNat = (s.memRead (s.sp + 8)).toNat)) ∧
  (∀ (m : OpcodeMap) (s t : State), s.fault = none → engine m s = .next t → t.fault ≠ none → t.pc = s.pc)

/-! ### Rules of the whole machine -/

/-- 10_state.md, section 3: FL changes by IRET only. -/
def Obligations.OnlyIretWritesFl : Prop :=
  ∀ (m : OpcodeMap) (s t : State), engine m s = .next t → t.fl ≠ s.fl → s.run = .running ∧ s.fetch m = .ok .iret

/-- 20_memory.md, section 1 (and C5): a byte of memory changes only by ST at the address in register A, or by PUSH or
CALL at the decremented SP. -/
def Obligations.OnlyStPushAndCallWriteMemory : Prop :=
  ∀ (m : OpcodeMap) (s t : State) (a : Byte), engine m s = .next t → t.memRead a ≠ s.memRead a →
    (∃ x y q, s.fetch m = .ok (.st x y) ∧ Reg.ofByte? x = some q ∧ a = s.readReg q) ∨
    (∃ r, s.fetch m = .ok (.push r) ∧ a = s.decSp.sp) ∨
    (∃ r, s.fetch m = .ok (.call r) ∧ a = s.decSp.sp)

/-- 10_state.md, section 1, the table of register writers: a register that changes is one its instruction writes. -/
def Obligations.RegistersChangeOnlyByTheirWriters : Prop :=
  ∀ (m : OpcodeMap) (s t : State) (q : Reg), engine m s = .next t → t.readReg q ≠ s.readReg q →
    ∃ i, s.fetch m = .ok i ∧
      ((∃ r imm, i = .ldi r imm ∧ Reg.ofByte? r = some q) ∨
       (∃ a b, (i = .add a b ∨ i = .mul a b) ∧ Reg.ofByte? a = some q) ∨
       (∃ r, i = .pop r ∧ (Reg.ofByte? r = some q ∨ q = .r7)) ∨
       ((∃ r, i = .push r ∨ i = .call r) ∧ q = .r7) ∨
       (i = .ret ∧ q = .r7) ∨
       i = .iret)

/-- 10_state.md, section 1: results and SP steps are reduced `mod 256`. In the POP R7 case SP ends at the popped byte
plus one: that is the statement order of the spec's decision D22 (43_memory_stack.md R141; log 10). -/
def Obligations.RegisterArithmeticWrapsModulo256 : Prop :=
  ∀ (s : State) (a b : Byte) (i j : Reg), Reg.ofByte? a = some i → Reg.ofByte? b = some j →
    (∃ t, exec (.add a b) s = .next t ∧
      (t.readReg i).toNat = ((s.readReg i).toNat + (s.readReg j).toNat) % 256) ∧
    (∃ t, exec (.mul a b) s = .next t ∧
      (t.readReg i).toNat = ((s.readReg i).toNat * (s.readReg j).toNat) % 256) ∧
    (∃ t, exec (.push a) s = .next t ∧ t.sp.toNat = (s.sp.toNat + 255) % 256) ∧
    (∃ t, exec (.call a) s = .next t ∧ t.sp.toNat = (s.sp.toNat + 255) % 256) ∧
    (∃ t, exec (.pop a) s = .next t ∧
      t.sp.toNat = ((if i = .r7 then s.memRead s.sp else s.sp).toNat + 1) % 256) ∧
    (∃ t, exec .ret s = .next t ∧ t.sp.toNat = (s.sp.toNat + 1) % 256) ∧
    (∃ t, exec .iret s = .next t ∧ t.sp.toNat = (s.sp.toNat + 9) % 256)

/-- 10_state.md, section 6: the output sequence only grows, at its end, by the one event of a PRN or PRA. -/
def Obligations.OutputGrowsOnlyByPrnAndPra : Prop :=
  ∀ (m : OpcodeMap) (s t : State), engine m s = .next t →
    t.out = s.out ∨
    ∃ r q, Reg.ofByte? r = some q ∧
      ((s.fetch m = .ok (.prn r) ∧ t.out = s.out ++ [⟨.dec, s.readReg q⟩]) ∨
       (s.fetch m = .ok (.pra r) ∧ t.out = s.out ++ [⟨.chr, s.readReg q⟩]))

/-- 40_execution_cycle.md, section 2, and 60_exceptions.md, section 3: no value of IM or IS changes what a cycle does
(decisions D1, D10). Two machines that differ in IM and IS alone fetch the same instruction, and unless it names them
or is IRET, they still differ in IM and IS alone, in the same way, after it. -/
def Obligations.InterruptRegistersAreInert : Prop :=
  ∀ (m : OpcodeMap) (s : State) (im is : Byte),
    ((s.writeReg .r5 im).writeReg .r6 is).fetch m = s.fetch m ∧
    ((∀ i, s.fetch m = .ok i → i ≠ .iret ∧ ∀ f ∈ i.registerFields, f.2.toNat ≠ 5 ∧ f.2.toNat ≠ 6) →
      ∃ t, engine m s = .next t ∧
        engine m ((s.writeReg .r5 im).writeReg .r6 is) = .next ((t.writeReg .r5 im).writeReg .r6 is))

/-! ### The stack, calls and frames -/

/-- 43_memory_stack.md, stack discipline, one pair: the popped register gets the pushed value and SP is back, also for
the pair PUSH R7, POP R7; a byte pushed from another register and popped into R7 leaves SP at that byte plus one
(D22). -/
def Obligations.PopAfterPushGivesTheValueBack : Prop :=
  ∀ (s : State) (r r' : Byte) (q q' : Reg), Reg.ofByte? r = some q → Reg.ofByte? r' = some q' →
    ∃ t, execAll [.push r, .pop r'] s = .next t ∧
      (q' ≠ .r7 → t.readReg q' = (if q = .r7 then s.sp - 1 else s.readReg q) ∧ t.sp = s.sp) ∧
      (q' = .r7 → q = .r7 → t.sp = s.sp) ∧
      (q' = .r7 → q ≠ .r7 → t.sp = s.readReg q + 1)

/-- 43_memory_stack.md, stack discipline, any number of pairs: N pushes and then N pops into registers other than R7
bring SP back, for any N; and up to 256 pushes of registers other than R7, undone in the opposite order, bring every
register back. -/
def Obligations.PushesUndoneByPopsRestoreTheRegisters : Prop :=
  (∀ (s : State) (rs rs' : List Byte), rs.length = rs'.length → (∀ r ∈ rs, r.toNat < 8) →
    (∀ r ∈ rs', r.toNat < 7) →
    ∃ t, execAll (rs.map .push ++ rs'.map .pop) s = .next t ∧ t.sp = s.sp) ∧
  (∀ (s : State) (rs : List Byte), rs.length ≤ 256 → (∀ r ∈ rs, r.toNat < 7) →
    ∃ t, execAll (rs.map .push ++ rs.reverse.map .pop) s = .next t ∧ t.regs = s.regs)

/-- 44_control_transfer.md, call and return linkage: after a CALL, from any state that has SP where the CALL left it
and the return byte still there, RET resumes after the CALL with SP at its value before it. -/
def Obligations.RetAfterCallResumesAfterTheCall : Prop :=
  ∀ (s u : State) (r : Byte) (q : Reg), Reg.ofByte? r = some q →
    ∃ t, exec (.call r) s = .next t ∧
      (u.sp = t.sp → u.memRead u.sp = t.memRead t.sp →
        ∃ v, exec .ret u = .next v ∧ v.pc.toNat = (s.pc.toNat + 2) % 256 ∧ v.sp = s.sp)

/-- 45_interrupt.md, the IRET frame: bytes pushed in the order return address, FL, R0 to R6 come back from IRET, each
in its place, with SP where it was. -/
def Obligations.IretUndoesASoftwareBuiltFrame : Prop :=
  ∀ (s : State) (target fl x0 x1 x2 x3 x4 x5 x6 : Byte),
    ∃ t, exec .iret ([target, fl, x0, x1, x2, x3, x4, x5, x6].foldl (fun u v => u.decSp.storeTop v) s) = .next t ∧
      t.readReg .r0 = x0 ∧ t.readReg .r1 = x1 ∧ t.readReg .r2 = x2 ∧ t.readReg .r3 = x3 ∧
      t.readReg .r4 = x4 ∧ t.readReg .r5 = x5 ∧ t.readReg .r6 = x6 ∧
      t.fl = fl ∧ t.pc.toNat = target.toNat ∧ t.sp = s.sp

/-- 20_memory.md, fetch coherence: a ST that puts a one-byte opcode right after itself is followed by that
instruction. -/
def Obligations.StoredInstructionRunsInTheNextCycle : Prop :=
  ∀ (m : OpcodeMap) (s : State) (a b : Byte) (i j : Reg) (next : Instr), s.run = .running →
    s.HoldsAtPc m (.st a b) → Reg.ofByte? a = some i → Reg.ofByte? b = some j →
    (s.readReg i).toNat = s.pc.toNat + 3 → encodeWith m next = [s.readReg j] →
    ∃ t, engine m s = .next t ∧ engine m t = exec next t

/-! ### Reset, load and invariants -/

/-- 10_state.md, section 7: the reset values. That `run` is RUNNING is the invoked machine (log 4). -/
def Obligations.ResetValues : Prop :=
  State.reset.sp = 0xF4 ∧ (∀ q, q ≠ .r7 → State.reset.readReg q = 0x00) ∧ State.reset.pc = 0 ∧
  State.reset.fl = 0x00 ∧ (∀ a, State.reset.memRead a = 0x00) ∧ State.reset.run = .running ∧
  State.reset.fault = none ∧ State.reset.out = []

/-- The invariant holds after reset, for every legal opcode map. -/
def Obligations.ResetMeetsTheInvariant : Prop :=
  ∀ m : OpcodeMap, State.reset.Inv m

/-- The invariant is kept: the memory stays canonical, `pc` stays at most 258 (10_state.md, section 2), and a fault
record stands only in a HALTED machine, with that machine's `pc`, and its cause is true of it (60_exceptions.md,
section 1). -/
def Obligations.StepKeepsTheInvariant : Prop :=
  (∀ (m : OpcodeMap) (s t : State), s.Inv m → engine m s = .next t → t.Inv m) ∧
  (∀ s t : State, s.Inv defaultOpcodeMap → step s = .next t → t.Inv defaultOpcodeMap)

/-- 70_reset_and_hazards.md, section 1: the loaded image stands from address 0, the rest of memory and every register
is as it was, and an image of more than 256 bytes is refused (decision D11). -/
def Obligations.LoadWritesOnlyTheImage : Prop :=
  ∀ (s : State) (image : List Byte),
    (256 < image.length → s.load image = none) ∧
    (image.length ≤ 256 → ∃ t, s.load image = some t ∧
      (∀ a : Byte, t.memRead a = (image[a.toNat]?).getD (s.memRead a)) ∧
      t = { s with mem := t.mem } ∧ (∀ m : OpcodeMap, s.Inv m → s.fault = none → t.Inv m))

/-- From every image that can be loaded, a run of any number of steps goes through next states that meet the
invariant. -/
def Obligations.RunsFromALoadedImageMeetTheInvariant : Prop :=
  ∀ image : List Byte, image.length ≤ 256 → ∃ s, State.reset.load image = some s ∧
    ∀ k, ∃ t, Host.Core.run Sys2Proof.core k s = .next t ∧ t.Inv defaultOpcodeMap

/-- The model's own interface (log 12): a table word placed for the next step is the instruction that step runs, and
the placing keeps the memory canonical. -/
def Obligations.PlacedTableWordRunsNext : Prop :=
  ∀ (s : State) (nbits w : Nat) (i : Instr), decodeTableWord nbits w = some i →
    step (s.withFetchWord nbits w) = exec i (s.withFetchWord nbits w) ∧
    (s.mem.wf → (s.withFetchWord nbits w).mem.wf)
end

