-- ==== Sys2Proof/Laws/Decode.lean ====
section
/-! SUPPORT. Recognition inverts the opcode map, and what the decoder can answer. -/

namespace Sys2Proof

theorem Mnemonic.mem_all (op : Mnemonic) : op ∈ Mnemonic.all := by
  cases op <;> decide

@[simp] theorem OpcodeMap.recognise_byte (m : OpcodeMap) (op : Mnemonic) : m.recognise (m.byte op) = some op := by
  unfold OpcodeMap.recognise
  cases h : Mnemonic.all.find? fun op' => m.byte op' == m.byte op with
  | none =>
    have := List.find?_eq_none.mp h op op.mem_all
    simp at this
  | some op' =>
    have := List.find?_some h
    simp only [beq_iff_eq] at this
    rw [m.distinct _ _ this]

theorem OpcodeMap.byte_of_recognise {m : OpcodeMap} {b : Byte} {op : Mnemonic} (h : m.recognise b = some op) :
    m.byte op = b := by
  simpa using List.find?_some h

theorem OpcodeMap.recognise_eq_none {m : OpcodeMap} {b : Byte} :
    m.recognise b = none ↔ ∀ op, m.byte op ≠ b := by
  constructor
  · intro h op e
    subst e
    simp at h
  · intro h
    cases e : m.recognise b with
    | none => rfl
    | some op => exact absurd (OpcodeMap.byte_of_recognise e) (h op)

theorem decodeFrom_no_opcode {m : OpcodeMap} {get : Nat → Option Byte} (h : get 0 = none) :
    decodeFrom m get = .error (.missingByte 0) := by
  simp [decodeFrom, h]

theorem decodeFrom_unrecognized {m : OpcodeMap} {get : Nat → Option Byte} {b : Byte} (h : get 0 = some b)
    (hb : ∀ op, m.byte op ≠ b) : decodeFrom m get = .error (.unrecognized b) := by
  simp [decodeFrom, h, OpcodeMap.recognise_eq_none.mpr hb]

theorem decodeFrom_recognised {m : OpcodeMap} {get : Nat → Option Byte} {op : Mnemonic}
    (h : get 0 = some (m.byte op)) : decodeFrom m get = decodeOperands get op := by
  simp [decodeFrom, h]

theorem Instr.length_eq (i : Instr) : i.length = i.operandBytes.length + 1 := by
  cases i <;> rfl


/-! ### What the decoder reads -/

theorem oneOperand_ok {get : Nat → Option Byte} {mk : Byte → Instr} {i : Instr} :
    oneOperand get mk = .ok i ↔ ∃ a, get 1 = some a ∧ mk a = i := by
  unfold oneOperand
  cases get 1 <;> simp

theorem twoOperands_ok {get : Nat → Option Byte} {mk : Byte → Byte → Instr} {i : Instr} :
    twoOperands get mk = .ok i ↔ ∃ a b, get 1 = some a ∧ get 2 = some b ∧ mk a b = i := by
  unfold twoOperands
  cases get 1 <;> cases get 2 <;> simp

theorem forall_one {get : Nat → Option Byte} {a : Byte} :
    (∀ k (h : k < [a].length), get (k + 1) = some ([a][k])) ↔ get 1 = some a :=
  ⟨fun h => h 0 (by simp), fun h k hk => by
    obtain rfl : k = 0 := by simpa using hk
    exact h⟩

theorem forall_two {get : Nat → Option Byte} {a b : Byte} :
    (∀ k (h : k < [a, b].length), get (k + 1) = some ([a, b][k])) ↔ get 1 = some a ∧ get 2 = some b :=
  ⟨fun h => ⟨h 0 (by simp), h 1 (by simp)⟩, fun h k hk => by
    have hk : k < 2 := hk
    obtain rfl | rfl : k = 0 ∨ k = 1 := by omega
    · exact h.1
    · exact h.2⟩

/-- Operand decoding succeeds with exactly the instructions of the mnemonic whose operand bytes the supplier gives. -/
theorem decodeOperands_ok {get : Nat → Option Byte} {op : Mnemonic} {i : Instr} :
    decodeOperands get op = .ok i ↔
      i.mnemonic = op ∧ ∀ k (h : k < i.operandBytes.length), get (k + 1) = some (i.operandBytes[k]) := by
  cases i <;> simp only [Instr.operandBytes, forall_one, forall_two] <;> cases op <;>
    simp [decodeOperands, oneOperand_ok, twoOperands_ok, Instr.mnemonic]

/-- Operand decoding fails only on a declared operand byte that is not there, the first such. -/
theorem decodeOperands_error {get : Nat → Option Byte} {op : Mnemonic} {e : DecodeError}
    (h : decodeOperands get op = .error e) :
    (e = .missingByte 1 ∧ get 1 = none ∧ 1 ≤ op.operandCount) ∨
    (e = .missingByte 2 ∧ (∃ a, get 1 = some a) ∧ get 2 = none ∧ op.operandCount = 2) := by
  cases h1 : get 1 <;> cases h2 : get 2 <;> cases op <;>
    simp_all [decodeOperands, oneOperand, twoOperands, Mnemonic.operandCount]

/-- The decoder answers an instruction exactly when the supplier gives that instruction's encoding. -/
theorem decodeFrom_ok {m : OpcodeMap} {get : Nat → Option Byte} {i : Instr} :
    decodeFrom m get = .ok i ↔
      ∀ k (h : k < (encodeWith m i).length), get k = some ((encodeWith m i)[k]) := by
  constructor
  · intro h k hk
    unfold decodeFrom at h
    split at h
    · cases h
    · next b h0 =>
      split at h
      · cases h
      · next op hop =>
        obtain ⟨rfl, hops⟩ := decodeOperands_ok.mp h
        cases k with
        | zero => simp [encodeWith, h0, OpcodeMap.byte_of_recognise hop]
        | succ k => simpa [encodeWith] using hops k (by simpa [encodeWith] using hk)
  · intro h
    have h0 : get 0 = some (m.byte i.mnemonic) := h 0 (by simp [encodeWith])
    rw [decodeFrom_recognised h0]
    exact decodeOperands_ok.mpr ⟨rfl, fun k hk => by
      simpa [encodeWith] using h (k + 1) (by simpa [encodeWith] using hk)⟩

/-- Why the decoder refuses. -/
theorem decodeFrom_error {m : OpcodeMap} {get : Nat → Option Byte} {e : DecodeError}
    (h : decodeFrom m get = .error e) :
    (e = .missingByte 0 ∧ get 0 = none) ∨
    (∃ b, e = .unrecognized b ∧ get 0 = some b ∧ ∀ op, m.byte op ≠ b) ∨
    (∃ op, get 0 = some (m.byte op) ∧
      ((e = .missingByte 1 ∧ get 1 = none ∧ 1 ≤ op.operandCount) ∨
       (e = .missingByte 2 ∧ (∃ a, get 1 = some a) ∧ get 2 = none ∧ op.operandCount = 2))) := by
  unfold decodeFrom at h
  split at h
  · next h0 =>
    cases h
    exact .inl ⟨rfl, h0⟩
  · next b h0 =>
    split at h
    · next hb =>
      cases h
      exact .inr (.inl ⟨b, rfl, h0, OpcodeMap.recognise_eq_none.mp hb⟩)
    · next op hop =>
      exact .inr (.inr ⟨op, by rw [h0, OpcodeMap.byte_of_recognise hop], decodeOperands_error h⟩)

end Sys2Proof
end

