-- ==== Sys2Proof/Laws/State.lean ====
section
/-! SUPPORT. What each state update does to each field of State, and to each register. -/

namespace Sys2Proof.Machine

variable (s : State)

/-! ### Fields under updates -/

@[simp] theorem State.writeReg_regs (r : Reg) (v : Byte) : (s.writeReg r v).regs = s.regs.set r v := rfl
@[simp] theorem State.writeReg_pc (r : Reg) (v : Byte) : (s.writeReg r v).pc = s.pc := rfl
@[simp] theorem State.writeReg_fl (r : Reg) (v : Byte) : (s.writeReg r v).fl = s.fl := rfl
@[simp] theorem State.writeReg_mem (r : Reg) (v : Byte) : (s.writeReg r v).mem = s.mem := rfl
@[simp] theorem State.writeReg_run (r : Reg) (v : Byte) : (s.writeReg r v).run = s.run := rfl
@[simp] theorem State.writeReg_fault (r : Reg) (v : Byte) : (s.writeReg r v).fault = s.fault := rfl
@[simp] theorem State.writeReg_out (r : Reg) (v : Byte) : (s.writeReg r v).out = s.out := rfl

@[simp] theorem State.memWrite_regs (a v : Byte) : (s.memWrite a v).regs = s.regs := rfl
@[simp] theorem State.memWrite_pc (a v : Byte) : (s.memWrite a v).pc = s.pc := rfl
@[simp] theorem State.memWrite_fl (a v : Byte) : (s.memWrite a v).fl = s.fl := rfl
@[simp] theorem State.memWrite_mem (a v : Byte) : (s.memWrite a v).mem = s.mem.write a.toNat v := rfl
@[simp] theorem State.memWrite_run (a v : Byte) : (s.memWrite a v).run = s.run := rfl
@[simp] theorem State.memWrite_fault (a v : Byte) : (s.memWrite a v).fault = s.fault := rfl
@[simp] theorem State.memWrite_out (a v : Byte) : (s.memWrite a v).out = s.out := rfl

@[simp] theorem State.storeTop_regs (v : Byte) : (s.storeTop v).regs = s.regs := rfl
@[simp] theorem State.storeTop_pc (v : Byte) : (s.storeTop v).pc = s.pc := rfl
@[simp] theorem State.storeTop_fl (v : Byte) : (s.storeTop v).fl = s.fl := rfl
@[simp] theorem State.storeTop_mem (v : Byte) : (s.storeTop v).mem = s.mem.write s.sp.toNat v := rfl
@[simp] theorem State.storeTop_run (v : Byte) : (s.storeTop v).run = s.run := rfl
@[simp] theorem State.storeTop_fault (v : Byte) : (s.storeTop v).fault = s.fault := rfl
@[simp] theorem State.storeTop_out (v : Byte) : (s.storeTop v).out = s.out := rfl

@[simp] theorem State.advance_regs (n : Nat) : (s.advance n).regs = s.regs := rfl
@[simp] theorem State.advance_pc (n : Nat) : (s.advance n).pc = s.pc + BitVec.ofNat 9 n := rfl
@[simp] theorem State.advance_fl (n : Nat) : (s.advance n).fl = s.fl := rfl
@[simp] theorem State.advance_mem (n : Nat) : (s.advance n).mem = s.mem := rfl
@[simp] theorem State.advance_run (n : Nat) : (s.advance n).run = s.run := rfl
@[simp] theorem State.advance_fault (n : Nat) : (s.advance n).fault = s.fault := rfl
@[simp] theorem State.advance_out (n : Nat) : (s.advance n).out = s.out := rfl

@[simp] theorem State.jump_regs (b : Byte) : (s.jump b).regs = s.regs := rfl
@[simp] theorem State.jump_pc (b : Byte) : (s.jump b).pc = zext9 b := rfl
@[simp] theorem State.jump_fl (b : Byte) : (s.jump b).fl = s.fl := rfl
@[simp] theorem State.jump_mem (b : Byte) : (s.jump b).mem = s.mem := rfl
@[simp] theorem State.jump_run (b : Byte) : (s.jump b).run = s.run := rfl
@[simp] theorem State.jump_fault (b : Byte) : (s.jump b).fault = s.fault := rfl
@[simp] theorem State.jump_out (b : Byte) : (s.jump b).out = s.out := rfl

@[simp] theorem State.emit_regs (k : OutKind) (v : Byte) : (s.emit k v).regs = s.regs := rfl
@[simp] theorem State.emit_pc (k : OutKind) (v : Byte) : (s.emit k v).pc = s.pc := rfl
@[simp] theorem State.emit_fl (k : OutKind) (v : Byte) : (s.emit k v).fl = s.fl := rfl
@[simp] theorem State.emit_mem (k : OutKind) (v : Byte) : (s.emit k v).mem = s.mem := rfl
@[simp] theorem State.emit_run (k : OutKind) (v : Byte) : (s.emit k v).run = s.run := rfl
@[simp] theorem State.emit_fault (k : OutKind) (v : Byte) : (s.emit k v).fault = s.fault := rfl
@[simp] theorem State.emit_out (k : OutKind) (v : Byte) : (s.emit k v).out = s.out ++ [⟨k, v⟩] := rfl

@[simp] theorem State.halt_regs : (s.halt).regs = s.regs := rfl
@[simp] theorem State.halt_pc : (s.halt).pc = s.pc := rfl
@[simp] theorem State.halt_fl : (s.halt).fl = s.fl := rfl
@[simp] theorem State.halt_mem : (s.halt).mem = s.mem := rfl
@[simp] theorem State.halt_run : (s.halt).run = .halted := rfl
@[simp] theorem State.halt_fault : (s.halt).fault = s.fault := rfl
@[simp] theorem State.halt_out : (s.halt).out = s.out := rfl

@[simp] theorem State.setFl_regs (v : Byte) : (s.setFl v).regs = s.regs := rfl
@[simp] theorem State.setFl_pc (v : Byte) : (s.setFl v).pc = s.pc := rfl
@[simp] theorem State.setFl_fl (v : Byte) : (s.setFl v).fl = v := rfl
@[simp] theorem State.setFl_mem (v : Byte) : (s.setFl v).mem = s.mem := rfl
@[simp] theorem State.setFl_run (v : Byte) : (s.setFl v).run = s.run := rfl
@[simp] theorem State.setFl_fault (v : Byte) : (s.setFl v).fault = s.fault := rfl
@[simp] theorem State.setFl_out (v : Byte) : (s.setFl v).out = s.out := rfl

@[simp] theorem State.takeFault_regs (f : Fault) : (s.takeFault f).regs = s.regs := rfl
@[simp] theorem State.takeFault_pc (f : Fault) : (s.takeFault f).pc = s.pc := rfl
@[simp] theorem State.takeFault_fl (f : Fault) : (s.takeFault f).fl = s.fl := rfl
@[simp] theorem State.takeFault_mem (f : Fault) : (s.takeFault f).mem = s.mem := rfl
@[simp] theorem State.takeFault_run (f : Fault) : (s.takeFault f).run = .halted := rfl
@[simp] theorem State.takeFault_fault (f : Fault) : (s.takeFault f).fault = some ⟨f, s.pc⟩ := rfl
@[simp] theorem State.takeFault_out (f : Fault) : (s.takeFault f).out = s.out := rfl

@[simp] theorem State.decSp_regs : (s.decSp).regs = s.regs.set .r7 (s.sp - 1) := rfl
@[simp] theorem State.decSp_pc : (s.decSp).pc = s.pc := rfl
@[simp] theorem State.decSp_fl : (s.decSp).fl = s.fl := rfl
@[simp] theorem State.decSp_mem : (s.decSp).mem = s.mem := rfl
@[simp] theorem State.decSp_run : (s.decSp).run = s.run := rfl
@[simp] theorem State.decSp_fault : (s.decSp).fault = s.fault := rfl
@[simp] theorem State.decSp_out : (s.decSp).out = s.out := rfl

@[simp] theorem State.incSp_regs : (s.incSp).regs = s.regs.set .r7 (s.sp + 1) := rfl
@[simp] theorem State.incSp_pc : (s.incSp).pc = s.pc := rfl
@[simp] theorem State.incSp_fl : (s.incSp).fl = s.fl := rfl
@[simp] theorem State.incSp_mem : (s.incSp).mem = s.mem := rfl
@[simp] theorem State.incSp_run : (s.incSp).run = s.run := rfl
@[simp] theorem State.incSp_fault : (s.incSp).fault = s.fault := rfl
@[simp] theorem State.incSp_out : (s.incSp).out = s.out := rfl

/-! ### Registers under updates -/

@[simp] theorem RegFile.get_set (f : RegFile) (r q : Reg) (v : Byte) :
    (f.set r v).get q = if q = r then v else f.get q := by
  cases r <;> cases q <;> rfl

@[simp] theorem State.readReg_writeReg (r q : Reg) (v : Byte) :
    (s.writeReg r v).readReg q = if q = r then v else s.readReg q :=
  RegFile.get_set s.regs r q v

@[simp] theorem State.sp_writeReg (r : Reg) (v : Byte) :
    (s.writeReg r v).sp = if .r7 = r then v else s.sp :=
  RegFile.get_set s.regs r .r7 v

@[simp] theorem State.readReg_decSp (q : Reg) :
    s.decSp.readReg q = if q = .r7 then s.sp - 1 else s.readReg q :=
  s.readReg_writeReg .r7 q _

@[simp] theorem State.readReg_incSp (q : Reg) :
    s.incSp.readReg q = if q = .r7 then s.sp + 1 else s.readReg q :=
  s.readReg_writeReg .r7 q _

@[simp] theorem State.sp_decSp : s.decSp.sp = s.sp - 1 := rfl
@[simp] theorem State.sp_incSp : s.incSp.sp = s.sp + 1 := rfl

@[simp] theorem State.readReg_memWrite (a v : Byte) (q : Reg) : (s.memWrite a v).readReg q = s.readReg q := rfl
@[simp] theorem State.sp_memWrite (a v : Byte) : (s.memWrite a v).sp = s.sp := rfl
@[simp] theorem State.readReg_storeTop (v : Byte) (q : Reg) : (s.storeTop v).readReg q = s.readReg q := rfl
@[simp] theorem State.sp_storeTop (v : Byte) : (s.storeTop v).sp = s.sp := rfl
@[simp] theorem State.readReg_advance (n : Nat) (q : Reg) : (s.advance n).readReg q = s.readReg q := rfl
@[simp] theorem State.sp_advance (n : Nat) : (s.advance n).sp = s.sp := rfl
@[simp] theorem State.readReg_jump (b : Byte) (q : Reg) : (s.jump b).readReg q = s.readReg q := rfl
@[simp] theorem State.sp_jump (b : Byte) : (s.jump b).sp = s.sp := rfl
@[simp] theorem State.readReg_emit (k : OutKind) (v : Byte) (q : Reg) : (s.emit k v).readReg q = s.readReg q := rfl
@[simp] theorem State.sp_emit (k : OutKind) (v : Byte) : (s.emit k v).sp = s.sp := rfl
@[simp] theorem State.readReg_halt (q : Reg) : (s.halt).readReg q = s.readReg q := rfl
@[simp] theorem State.sp_halt : (s.halt).sp = s.sp := rfl
@[simp] theorem State.readReg_setFl (v : Byte) (q : Reg) : (s.setFl v).readReg q = s.readReg q := rfl
@[simp] theorem State.sp_setFl (v : Byte) : (s.setFl v).sp = s.sp := rfl
@[simp] theorem State.readReg_takeFault (f : Fault) (q : Reg) : (s.takeFault f).readReg q = s.readReg q := rfl
@[simp] theorem State.sp_takeFault (f : Fault) : (s.takeFault f).sp = s.sp := rfl

/-! ### Data memory under updates -/

@[simp] theorem State.memRead_writeReg (r : Reg) (v : Byte) (c : Byte) : (s.writeReg r v).memRead c = s.memRead c := rfl
@[simp] theorem State.memRead_advance (n : Nat) (c : Byte) : (s.advance n).memRead c = s.memRead c := rfl
@[simp] theorem State.memRead_jump (b : Byte) (c : Byte) : (s.jump b).memRead c = s.memRead c := rfl
@[simp] theorem State.memRead_emit (k : OutKind) (v : Byte) (c : Byte) : (s.emit k v).memRead c = s.memRead c := rfl
@[simp] theorem State.memRead_halt (c : Byte) : (s.halt).memRead c = s.memRead c := rfl
@[simp] theorem State.memRead_setFl (v : Byte) (c : Byte) : (s.setFl v).memRead c = s.memRead c := rfl
@[simp] theorem State.memRead_takeFault (f : Fault) (c : Byte) : (s.takeFault f).memRead c = s.memRead c := rfl
@[simp] theorem State.memRead_decSp (c : Byte) : (s.decSp).memRead c = s.memRead c := rfl
@[simp] theorem State.memRead_incSp (c : Byte) : (s.incSp).memRead c = s.memRead c := rfl

/-- A register file is its eight registers. -/
theorem RegFile.ext_get (f g : RegFile) (h : ∀ r, f.get r = g.get r) : f = g := by
  cases f; cases g
  have h0 := h .r0; have h1 := h .r1; have h2 := h .r2; have h3 := h .r3
  have h4 := h .r4; have h5 := h .r5; have h6 := h .r6; have h7 := h .r7
  simp only [RegFile.get] at h0 h1 h2 h3 h4 h5 h6 h7
  simp [*]

end Sys2Proof.Machine
end

