-- ==== Sys2Proof/Laws/Memory.lean ====
section
/-! SUPPORT. The laws of memory: read after write, and that every memory operation keeps the canonical form. -/

namespace Sys2Proof.Machine

/-! ### Reading -/

theorem Memory.read_erase (m : Memory) (a b : Nat) :
    (m.erase a).read b = if b = a then Memory.unlisted else m.read b := by
  induction m with
  | nil => simp [Memory.erase, Memory.read]
  | cons c m ih =>
    by_cases h : c.1 = a
    · by_cases hb : b = a
      · rw [if_pos hb] at ih ⊢
        simp [Memory.erase, h, ih]
      · simp [Memory.erase, Memory.read, h, ih, hb, Ne.symm hb]
    · by_cases hc : c.1 = b
      · have hb : b ≠ a := fun hb => h (hc.trans hb)
        simp [Memory.erase, Memory.read, hc, hb]
      · simp [Memory.erase, Memory.read, h, hc, ih]

theorem Memory.read_insert (m : Memory) (a b : Nat) (v : Byte) (h : ∀ c ∈ m, c.1 ≠ a) :
    (m.insert a v).read b = if b = a then v else m.read b := by
  induction m with
  | nil => simp [Memory.insert, Memory.read, eq_comm]
  | cons c m ih =>
    have hc : c.1 ≠ a := h c (by simp)
    have ih := ih fun d hd => h d (by simp [hd])
    by_cases hlt : a < c.1
    · simp [Memory.insert, Memory.read, hlt, eq_comm]
    · by_cases hb : c.1 = b
      · have : b ≠ a := fun e => hc (hb.trans e)
        rw [if_neg this]
        simp only [Memory.insert, if_neg hlt, Memory.read, if_pos hb]
      · simp [Memory.insert, Memory.read, hlt, hb, ih]

theorem Memory.mem_erase {m : Memory} {a : Nat} {c : Host.Cell} (h : c ∈ m.erase a) : c ∈ m ∧ c.1 ≠ a := by
  induction m with
  | nil => simp [Memory.erase] at h
  | cons d m ih =>
    by_cases hd : d.1 = a
    · simp [Memory.erase, hd] at h
      exact ⟨by simp [(ih h).1], (ih h).2⟩
    · simp [Memory.erase, hd] at h
      rcases h with rfl | h
      · exact ⟨by simp, hd⟩
      · exact ⟨by simp [(ih h).1], (ih h).2⟩

/-- Reading after a write of one byte, for any list of cells (20_memory.md R51, R52). -/
@[simp] theorem Memory.read_write (m : Memory) (a b : Nat) (v : Byte) :
    (m.write a v).read b = if b = a then v else m.read b := by
  unfold Memory.write
  split
  · next h => rw [Memory.read_erase, h]
  · rw [Memory.read_insert _ _ _ _ fun c hc => (Memory.mem_erase hc).2, Memory.read_erase]
    split <;> rfl

@[simp] theorem State.memRead_memWrite (s : State) (a b v : Byte) :
    (s.memWrite a v).memRead b = if b = a then v else s.memRead b := by
  simp [State.memRead, BitVec.toNat_inj]

/-- Reading after writing a list of bytes to ascending addresses. -/
theorem Memory.read_writeFrom (vs : List Byte) (m : Memory) (a b : Nat) :
    (m.writeFrom a vs).read b =
      if h : a ≤ b ∧ b - a < vs.length then vs[b - a]'h.2 else m.read b := by
  induction vs generalizing m a with
  | nil => simp [Memory.writeFrom]
  | cons v vs ih =>
    simp only [Memory.writeFrom, ih, Memory.read_write, List.length_cons]
    by_cases hab : b = a
    · subst hab
      rw [dif_neg (by omega), dif_pos (by omega)]
      simp
    · by_cases h : a + 1 ≤ b ∧ b - (a + 1) < vs.length
      · have h' : a ≤ b ∧ b - a < vs.length + 1 := by omega
        have e : b - a = b - (a + 1) + 1 := by omega
        simp only [h, h', and_self, dite_true]
        simp only [e, List.getElem_cons_succ]
      · have h' : ¬ (a ≤ b ∧ b - a < vs.length + 1) := by omega
        rw [dif_neg h, dif_neg h', if_neg hab]

/-! ### The canonical form -/

theorem Memory.erase_wf {m : Memory} (h : m.wf) (a : Nat) : (m.erase a).wf := by
  refine ⟨?_, fun c hc => h.2 c (Memory.mem_erase hc).1⟩
  have h1 := h.1
  clear h
  induction m with
  | nil => simp [Memory.erase]
  | cons d m ih =>
    rw [List.pairwise_cons] at h1
    by_cases hd : d.1 = a
    · simpa [Memory.erase, hd] using ih h1.2
    · simp only [Memory.erase, hd, if_false, List.pairwise_cons]
      exact ⟨fun c hc => h1.1 c (Memory.mem_erase hc).1, ih h1.2⟩

theorem Memory.mem_insert {m : Memory} {a : Nat} {v : Byte} {c : Host.Cell} (h : c ∈ m.insert a v) :
    c = (a, v) ∨ c ∈ m := by
  induction m with
  | nil => simpa [Memory.insert] using h
  | cons d m ih =>
    unfold Memory.insert at h
    split at h
    · simpa using h
    · rcases List.mem_cons.mp h with rfl | h
      · simp
      · rcases ih h with h | h <;> simp [h]

theorem Memory.insert_sorted {m : Memory} {a : Nat} {v : Byte}
    (h : List.Pairwise (fun c d : Host.Cell => c.1 < d.1) m) (ha : ∀ c ∈ m, c.1 ≠ a) :
    List.Pairwise (fun c d : Host.Cell => c.1 < d.1) (m.insert a v) := by
  induction m with
  | nil => simp [Memory.insert]
  | cons d m ih =>
    rw [List.pairwise_cons] at h
    unfold Memory.insert
    split
    · next hlt =>
      refine List.pairwise_cons.mpr ⟨fun c hc => ?_, List.pairwise_cons.mpr h⟩
      rcases List.mem_cons.mp hc with rfl | hc
      · exact hlt
      · exact Nat.lt_trans hlt (h.1 c hc)
    · next hlt =>
      have hne := ha d (by simp)
      refine List.pairwise_cons.mpr ⟨fun c hc => ?_, ih h.2 fun c hc => ha c (by simp [hc])⟩
      rcases Memory.mem_insert hc with rfl | hc
      · show d.1 < a
        omega
      · exact h.1 c hc

/-- A write of one byte below address 256 keeps the canonical form. -/
theorem Memory.write_wf {m : Memory} (h : m.wf) {a : Nat} (ha : a < 256) (v : Byte) : (m.write a v).wf := by
  unfold Memory.write
  split
  · exact Memory.erase_wf h a
  · next hv =>
    refine ⟨Memory.insert_sorted (Memory.erase_wf h a).1 fun c hc => (Memory.mem_erase hc).2, fun c hc => ?_⟩
    rcases Memory.mem_insert hc with rfl | hc
    · exact ⟨ha, hv⟩
    · exact h.2 c (Memory.mem_erase hc).1

/-- Writing bytes that all lie below address 256 keeps the canonical form. -/
theorem Memory.writeFrom_wf (vs : List Byte) {m : Memory} (h : m.wf) {a : Nat} (ha : a + vs.length ≤ 256) :
    (m.writeFrom a vs).wf := by
  induction vs generalizing m a with
  | nil => exact h
  | cons v vs ih =>
    simp only [List.length_cons] at ha
    exact ih (Memory.write_wf h (by omega) v) (by omega)

theorem State.memWrite_wf {s : State} (h : s.mem.wf) (a v : Byte) : (s.memWrite a v).mem.wf :=
  Memory.write_wf h a.isLt v

theorem State.storeTop_wf {s : State} (h : s.mem.wf) (v : Byte) : (s.storeTop v).mem.wf :=
  Memory.write_wf h s.sp.isLt v

theorem State.load_wf {s t : State} {image : List Byte} (h : s.mem.wf) (e : s.load image = some t) : t.mem.wf := by
  unfold State.load at e
  split at e
  · next hn =>
    cases e
    exact Memory.writeFrom_wf image h (by omega)
  · cases e

theorem State.placeAtFetch_wf {s : State} (h : s.mem.wf) {bytes : List Byte} (hb : bytes.length ≤ 256) :
    (s.placeAtFetch bytes).mem.wf := by
  unfold State.placeAtFetch
  refine Memory.writeFrom_wf bytes h ?_
  split
  · assumption
  · simpa using hb

theorem State.reset_mem_wf : State.reset.mem.wf := by decide

end Sys2Proof.Machine
end

