-- ==== Sys2Proof/Laws/Operands.lean ====
section
/-! SUPPORT. Register operands and the ALU: which byte names which register, and what the checked operations
answer. -/

namespace Sys2Proof.Machine

/-- The operand byte of a register. -/
def Reg.toByte (r : Reg) : Byte := BitVec.ofNat 8 r.index

@[simp] theorem Reg.ofByte?_toByte (r : Reg) : Reg.ofByte? r.toByte = some r := by
  cases r <;> rfl

theorem Reg.index_lt (r : Reg) : r.index < 8 := by
  cases r <;> decide

theorem Reg.index_of_ofByte? {b : Byte} {r : Reg} (h : Reg.ofByte? b = some r) : b.toNat = r.index := by
  unfold Reg.ofByte? at h
  split at h <;> cases h <;> assumption

theorem Reg.ofByte?_of_ge {b : Byte} (h : 8 ≤ b.toNat) : Reg.ofByte? b = none := by
  cases e : Reg.ofByte? b with
  | none => rfl
  | some r =>
    have := Reg.index_of_ofByte? e
    have := r.index_lt
    omega

theorem Reg.ofByte?_of_lt {b : Byte} (h : b.toNat < 8) : ∃ r, Reg.ofByte? b = some r := by
  have : b.toNat = 0 ∨ b.toNat = 1 ∨ b.toNat = 2 ∨ b.toNat = 3 ∨ b.toNat = 4 ∨ b.toNat = 5 ∨ b.toNat = 6 ∨
      b.toNat = 7 := by omega
  rcases this with h | h | h | h | h | h | h | h <;> simp [Reg.ofByte?, h]

theorem Reg.ofByte?_eq_none {b : Byte} : Reg.ofByte? b = none ↔ 8 ≤ b.toNat := by
  refine ⟨fun h => ?_, Reg.ofByte?_of_ge⟩
  rcases Nat.lt_or_ge b.toNat 8 with hlt | hge
  · obtain ⟨r, hr⟩ := Reg.ofByte?_of_lt hlt
    simp [hr] at h
  · exact hge

/-! ### The checked operations -/

theorem withField_some {f : OperandField} {b : Byte} {s : State} {k : Reg → Host.Outcome State Fault Refusal}
    {r : Reg} (h : Reg.ofByte? b = some r) : withField f b s k = k r := by
  simp [withField, h]

theorem withField_none {f : OperandField} {b : Byte} {s : State} {k : Reg → Host.Outcome State Fault Refusal}
    (h : Reg.ofByte? b = none) : withField f b s k = .next (s.takeFault (.illegalRegister b f)) := by
  simp [withField, h]

theorem withReg_some {a : Byte} {s : State} {effect : Reg → State} {r : Reg} (h : Reg.ofByte? a = some r) :
    withReg a s effect = .next (effect r) := withField_some h

theorem withReg_none {a : Byte} {s : State} {effect : Reg → State} (h : Reg.ofByte? a = none) :
    withReg a s effect = .next (s.takeFault (.illegalRegister a .A)) := withField_none h

theorem withRegs_some {a b : Byte} {s : State} {effect : Reg → Reg → State} {ra rb : Reg}
    (ha : Reg.ofByte? a = some ra) (hb : Reg.ofByte? b = some rb) :
    withRegs a b s effect = .next (effect ra rb) := by
  simp [withRegs, withField, ha, hb]

theorem withRegs_none_A {a b : Byte} {s : State} {effect : Reg → Reg → State} (ha : Reg.ofByte? a = none) :
    withRegs a b s effect = .next (s.takeFault (.illegalRegister a .A)) := withField_none ha

theorem withRegs_none_B {a b : Byte} {s : State} {effect : Reg → Reg → State} {ra : Reg}
    (ha : Reg.ofByte? a = some ra) (hb : Reg.ofByte? b = none) :
    withRegs a b s effect = .next (s.takeFault (.illegalRegister b .B)) := by
  simp [withRegs, withField, ha, hb]

/-- Everything a one-register operation can answer. -/
theorem withReg_cases (a : Byte) (s : State) (effect : Reg → State) :
    (∃ r, Reg.ofByte? a = some r ∧ withReg a s effect = .next (effect r)) ∨
    (8 ≤ a.toNat ∧ withReg a s effect = .next (s.takeFault (.illegalRegister a .A))) := by
  cases h : Reg.ofByte? a with
  | some r => exact .inl ⟨r, rfl, withReg_some h⟩
  | none => exact .inr ⟨Reg.ofByte?_eq_none.mp h, withReg_none h⟩

/-- Everything a two-register operation can answer. -/
theorem withRegs_cases (a b : Byte) (s : State) (effect : Reg → Reg → State) :
    (∃ ra rb, Reg.ofByte? a = some ra ∧ Reg.ofByte? b = some rb ∧
      withRegs a b s effect = .next (effect ra rb)) ∨
    (8 ≤ a.toNat ∧ withRegs a b s effect = .next (s.takeFault (.illegalRegister a .A))) ∨
    (a.toNat < 8 ∧ 8 ≤ b.toNat ∧ withRegs a b s effect = .next (s.takeFault (.illegalRegister b .B))) := by
  cases ha : Reg.ofByte? a with
  | none => exact .inr (.inl ⟨Reg.ofByte?_eq_none.mp ha, withRegs_none_A ha⟩)
  | some ra =>
    cases hb : Reg.ofByte? b with
    | some rb => exact .inl ⟨ra, rb, rfl, rfl, withRegs_some ha hb⟩
    | none =>
      have := Reg.index_of_ofByte? ha
      have := ra.index_lt
      exact .inr (.inr ⟨by omega, Reg.ofByte?_eq_none.mp hb, withRegs_none_B ha hb⟩)

/-! ### Arithmetic and widths -/

@[simp] theorem aluAdd_toNat (x y : Byte) : (aluAdd x y).toNat = (x.toNat + y.toNat) % 256 := by
  simp [aluAdd]

@[simp] theorem aluMul_toNat (x y : Byte) : (aluMul x y).toNat = (x.toNat * y.toNat) % 256 := by
  simp [aluMul]

@[simp] theorem zext9_toNat (b : Byte) : (zext9 b).toNat = b.toNat := by
  have := b.isLt
  simp [zext9]
  omega

@[simp] theorem low8_toNat (p : PcWord) : (low8 p).toNat = p.toNat % 256 := by
  simp [low8]

end Sys2Proof.Machine
end

