-- ==== Sys2Proof/Laws/Stack.lean ====
section
/-! SUPPORT. The pops: what each does to every field, once, and the nine pops of the return from interrupt. -/

namespace Sys2Proof.Machine

variable (s : State)

@[simp] theorem State.popReg_pc (r : Reg) : (s.popReg r).pc = s.pc := rfl
@[simp] theorem State.popReg_fl (r : Reg) : (s.popReg r).fl = s.fl := rfl
@[simp] theorem State.popReg_mem (r : Reg) : (s.popReg r).mem = s.mem := rfl
@[simp] theorem State.popReg_run (r : Reg) : (s.popReg r).run = s.run := rfl
@[simp] theorem State.popReg_fault (r : Reg) : (s.popReg r).fault = s.fault := rfl
@[simp] theorem State.popReg_out (r : Reg) : (s.popReg r).out = s.out := rfl
@[simp] theorem State.memRead_popReg (r : Reg) (a : Byte) : (s.popReg r).memRead a = s.memRead a := rfl

/-- A pop into a register other than SP: SP moves up by one. -/
@[simp] theorem State.sp_popReg (r : Reg) :
    (s.popReg r).sp = (if .r7 = r then s.top else s.sp) + 1 := by
  simp [State.popReg]

@[simp] theorem State.readReg_popReg (r q : Reg) :
    (s.popReg r).readReg q =
      if q = .r7 then (if .r7 = r then s.top else s.sp) + 1 else if q = r then s.top else s.readReg q := by
  simp [State.popReg]

@[simp] theorem State.popFl_pc : s.popFl.pc = s.pc := rfl
@[simp] theorem State.popFl_fl : s.popFl.fl = s.top := rfl
@[simp] theorem State.popFl_mem : s.popFl.mem = s.mem := rfl
@[simp] theorem State.popFl_run : s.popFl.run = s.run := rfl
@[simp] theorem State.popFl_fault : s.popFl.fault = s.fault := rfl
@[simp] theorem State.popFl_out : s.popFl.out = s.out := rfl
@[simp] theorem State.memRead_popFl (a : Byte) : s.popFl.memRead a = s.memRead a := rfl
@[simp] theorem State.sp_popFl : s.popFl.sp = s.sp + 1 := rfl
@[simp] theorem State.readReg_popFl (q : Reg) :
    s.popFl.readReg q = if q = .r7 then s.sp + 1 else s.readReg q := by
  simp [State.popFl]

@[simp] theorem State.popPc_pc : s.popPc.pc = zext9 s.top := rfl
@[simp] theorem State.popPc_fl : s.popPc.fl = s.fl := rfl
@[simp] theorem State.popPc_mem : s.popPc.mem = s.mem := rfl
@[simp] theorem State.popPc_run : s.popPc.run = s.run := rfl
@[simp] theorem State.popPc_fault : s.popPc.fault = s.fault := rfl
@[simp] theorem State.popPc_out : s.popPc.out = s.out := rfl
@[simp] theorem State.memRead_popPc (a : Byte) : s.popPc.memRead a = s.memRead a := rfl
@[simp] theorem State.sp_popPc : s.popPc.sp = s.sp + 1 := rfl
@[simp] theorem State.readReg_popPc (q : Reg) :
    s.popPc.readReg q = if q = .r7 then s.sp + 1 else s.readReg q := by
  simp [State.popPc]

/-! ### The return from interrupt -/

@[simp] theorem State.restoreFrame_mem : s.restoreFrame.mem = s.mem := by simp [State.restoreFrame]
@[simp] theorem State.restoreFrame_run : s.restoreFrame.run = s.run := by simp [State.restoreFrame]
@[simp] theorem State.restoreFrame_fault : s.restoreFrame.fault = s.fault := by simp [State.restoreFrame]
@[simp] theorem State.restoreFrame_out : s.restoreFrame.out = s.out := by simp [State.restoreFrame]

/-- The chain of pops keeps SP in step: after each pop into a register other than SP, SP is one higher. -/
theorem State.sp_popReg_ne {r : Reg} (h : r ≠ .r7) : (s.popReg r).sp = s.sp + 1 := by
  simp [Ne.symm h]

@[simp] theorem State.sp_restoreFrame : s.restoreFrame.sp = s.sp + 9 := by
  simp [State.restoreFrame, BitVec.add_assoc]

@[simp] theorem State.restoreFrame_fl : s.restoreFrame.fl = s.memRead (s.sp + 7) := by
  simp [State.restoreFrame, State.top, BitVec.add_assoc]

@[simp] theorem State.restoreFrame_pc : s.restoreFrame.pc = zext9 (s.memRead (s.sp + 8)) := by
  simp [State.restoreFrame, State.top, BitVec.add_assoc]

/-- Where in the frame each register lies (45_interrupt.md R162). -/
theorem State.readReg_restoreFrame (q : Reg) :
    s.restoreFrame.readReg q =
      match q with
      | .r0 => s.memRead (s.sp + 6)
      | .r1 => s.memRead (s.sp + 5)
      | .r2 => s.memRead (s.sp + 4)
      | .r3 => s.memRead (s.sp + 3)
      | .r4 => s.memRead (s.sp + 2)
      | .r5 => s.memRead (s.sp + 1)
      | .r6 => s.memRead s.sp
      | .r7 => s.sp + 9 := by
  cases q <;> simp [State.restoreFrame, State.top, BitVec.add_assoc]

end Sys2Proof.Machine
end

