-- ==== Sys2Proof/Laws/Cycle.lean ====
section
/-! SUPPORT. Fetch, said once: it answers an instruction exactly when its bytes stand at the program counter, and a
fault only when the fault's condition is true. What a RUNNING engine then does follows. -/

namespace Sys2Proof.Machine

theorem State.fetchAddr_toNat {s : State} {k : Nat} (h : s.pc.toNat < 256) (hk : k ≤ 2) :
    (s.fetchAddr k).toNat = s.pc.toNat + k := by
  simp [State.fetchAddr, BitVec.toNat_add]
  omega

@[simp] theorem State.fetchAddr_zero (s : State) : s.fetchAddr 0 = s.pc := by
  simp [State.fetchAddr]

theorem State.fetchByte?_eq_some {s : State} {a : PcWord} {b : Byte} :
    s.fetchByte? a = some b ↔ a.toNat < 256 ∧ s.mem.read a.toNat = b := by
  simp [State.fetchByte?]

theorem State.fetchByte?_eq_none {s : State} {a : PcWord} : s.fetchByte? a = none ↔ 256 ≤ a.toNat := by
  simp [State.fetchByte?]

theorem operandBytes_length_le (i : Instr) : i.operandBytes.length ≤ 2 := by
  cases i <;> simp [Instr.operandBytes]

/-- Fetch answers the instruction whose bytes stand at the program counter. -/
theorem State.fetch_ok {s : State} {m : OpcodeMap} {i : Instr} : s.fetch m = .ok i ↔ s.HoldsAtPc m i := by
  have hd : s.fetch m = .ok i ↔ (decodeFrom m fun k => s.fetchByte? (s.fetchAddr k)) = .ok i := by
    unfold State.fetch
    split <;> simp_all
  have hlen : (encodeWith m i).length ≤ 3 := by
    have := operandBytes_length_le i
    simp [encodeWith]
    omega
  rw [hd, decodeFrom_ok]
  constructor
  · intro h k hk
    have h0 := (State.fetchByte?_eq_some.mp (h 0 (by simp [encodeWith]))).1
    rw [State.fetchAddr_zero] at h0
    have := State.fetchByte?_eq_some.mp (h k hk)
    rwa [State.fetchAddr_toNat h0 (by omega)] at this
  · intro h k hk
    have h0 := (h 0 (by simp [encodeWith])).1
    refine State.fetchByte?_eq_some.mpr ?_
    rw [State.fetchAddr_toNat (by omega) (by omega)]
    exact h k hk

/-- A fault of fetch is one whose condition holds (60_exceptions.md R170), and never `IllegalRegister`. -/
theorem State.fetch_error {s : State} {m : OpcodeMap} {f : Fault} (h : s.fetch m = .error f) :
    f.TrueOf m s ∧ ∀ index field, f ≠ .illegalRegister index field := by
  unfold State.fetch at h
  split at h
  · next e he =>
    cases h
    rcases decodeFrom_error he with ⟨rfl, h0⟩ | ⟨b, rfl, h0, hb⟩ | ⟨op, h0, h1⟩
    · have := State.fetchByte?_eq_none.mp h0
      exact ⟨⟨this, .inl s.fetchAddr_zero⟩, by simp [faultOfDecodeError]⟩
    · have := State.fetchByte?_eq_some.mp h0
      simp only [State.fetchAddr_zero] at this
      exact ⟨⟨this.1, this.2, hb⟩, by simp [faultOfDecodeError]⟩
    · have hop := State.fetchByte?_eq_some.mp h0
      simp only [State.fetchAddr_zero] at hop
      have a1 := State.fetchAddr_toNat (k := 1) hop.1 (by decide)
      have a2 := State.fetchAddr_toNat (k := 2) hop.1 (by decide)
      refine ⟨?_, by rcases h1 with ⟨rfl, -⟩ | ⟨rfl, -⟩ <;> simp [faultOfDecodeError]⟩
      rcases h1 with ⟨rfl, h1, hc⟩ | ⟨rfl, ⟨a, ha⟩, h2, hc⟩
      · exact ⟨State.fetchByte?_eq_none.mp h1, .inr ⟨op, 1, hop.1, hop.2, by omega, hc, a1, by omega⟩⟩
      · have := (State.fetchByte?_eq_some.mp ha).1
        exact ⟨State.fetchByte?_eq_none.mp h2, .inr ⟨op, 2, hop.1, hop.2, by omega, by omega, a2, by omega⟩⟩
  · cases h

theorem engine_halted {m : OpcodeMap} {s : State} (h : s.run = .halted) : engine m s = .next s := by
  simp [engine, h]

theorem engine_running {m : OpcodeMap} {s : State} (h : s.run = .running) : engine m s = cycle m s := by
  simp [engine, h]

theorem cycle_ok {m : OpcodeMap} {s : State} {i : Instr} (h : s.fetch m = .ok i) : cycle m s = exec i s := by
  simp [cycle, h]

theorem cycle_error {m : OpcodeMap} {s : State} {f : Fault} (h : s.fetch m = .error f) :
    cycle m s = .next (s.takeFault f) := by
  simp [cycle, h]

/-- Everything the engine can do in a state. -/
theorem engine_cases (m : OpcodeMap) (s : State) :
    (s.run = .halted ∧ engine m s = .next s) ∨
    (s.run = .running ∧ ∃ f, s.fetch m = .error f ∧ engine m s = .next (s.takeFault f)) ∨
    (s.run = .running ∧ ∃ i, s.fetch m = .ok i ∧ engine m s = exec i s) := by
  cases h : s.run with
  | halted => exact .inl ⟨rfl, engine_halted h⟩
  | running =>
    rw [engine_running h]
    cases hf : s.fetch m with
    | error f => exact .inr (.inl ⟨rfl, f, rfl, cycle_error hf⟩)
    | ok i => exact .inr (.inr ⟨rfl, i, rfl, cycle_ok hf⟩)

end Sys2Proof.Machine
end

