-- ==== Sys2Proof/Laws/Exec.lean ====
section
/-! SUPPORT. Everything an instruction can do, once: `Ran s i t` has one constructor per instruction, and one for an
illegal register; `exec` answers `next t` only so. -/

namespace Sys2Proof.Machine

/-- What `exec i s` can answer as a next state. -/
inductive Ran (s : State) : Instr → State → Prop where
  | hlt : Ran s .hlt (s.halt.advance 1)
  | ldi {r v : Byte} {q : Reg} (hq : Reg.ofByte? r = some q) : Ran s (.ldi r v) ((s.writeReg q v).advance 3)
  | prn {r : Byte} {q : Reg} (hq : Reg.ofByte? r = some q) :
    Ran s (.prn r) ((s.emit .dec (s.readReg q)).advance 2)
  | pra {r : Byte} {q : Reg} (hq : Reg.ofByte? r = some q) :
    Ran s (.pra r) ((s.emit .chr (s.readReg q)).advance 2)
  | mul {a b : Byte} {p q : Reg} (hp : Reg.ofByte? a = some p) (hq : Reg.ofByte? b = some q) :
    Ran s (.mul a b) ((s.writeReg p (aluMul (s.readReg p) (s.readReg q))).advance 3)
  | add {a b : Byte} {p q : Reg} (hp : Reg.ofByte? a = some p) (hq : Reg.ofByte? b = some q) :
    Ran s (.add a b) ((s.writeReg p (aluAdd (s.readReg p) (s.readReg q))).advance 3)
  | push {r : Byte} {q : Reg} (hq : Reg.ofByte? r = some q) :
    Ran s (.push r) ((s.decSp.storeTop (s.decSp.readReg q)).advance 2)
  | pop {r : Byte} {q : Reg} (hq : Reg.ofByte? r = some q) : Ran s (.pop r) ((s.popReg q).advance 2)
  | call {r : Byte} {q : Reg} (hq : Reg.ofByte? r = some q) :
    Ran s (.call r) ((s.decSp.storeTop s.returnByte).jump (s.decSp.readReg q))
  | ret : Ran s .ret s.popPc
  | st {a b : Byte} {p q : Reg} (hp : Reg.ofByte? a = some p) (hq : Reg.ofByte? b = some q) :
    Ran s (.st a b) ((s.memWrite (s.readReg p) (s.readReg q)).advance 3)
  | jmp {r : Byte} {q : Reg} (hq : Reg.ofByte? r = some q) : Ran s (.jmp r) (s.jump (s.readReg q))
  | iret : Ran s .iret s.restoreFrame
  | int {x : Byte} : Ran s (.int x) (s.advance 2)
  | illegal {i : Instr} {f : OperandField} {b : Byte} (hi : i.illegalField = some (f, b)) (hb : 8 ≤ b.toNat) :
    Ran s i (s.takeFault (.illegalRegister b f))

theorem withReg_ran {i : Instr} {a : Byte} {s t : State} {effect : Reg → State} (hi : i.registerFields = [(.A, a)])
    (h : withReg a s effect = .next t) (ok : ∀ {q}, Reg.ofByte? a = some q → Ran s i (effect q)) : Ran s i t := by
  rcases withReg_cases a s effect with ⟨q, hq, e⟩ | ⟨ha, e⟩ <;> cases h.symm.trans e
  · exact ok hq
  · refine .illegal ?_ ha
    simp only [Instr.illegalField, hi, firstIllegal, if_neg (Nat.not_lt.mpr ha)]

theorem withRegs_ran {i : Instr} {a b : Byte} {s t : State} {effect : Reg → Reg → State}
    (hi : i.registerFields = [(.A, a), (.B, b)]) (h : withRegs a b s effect = .next t)
    (ok : ∀ {p q}, Reg.ofByte? a = some p → Reg.ofByte? b = some q → Ran s i (effect p q)) : Ran s i t := by
  rcases withRegs_cases a b s effect with ⟨p, q, hp, hq, e⟩ | ⟨ha, e⟩ | ⟨ha, hb, e⟩ <;> cases h.symm.trans e
  · exact ok hp hq
  · refine .illegal ?_ ha
    simp only [Instr.illegalField, hi, firstIllegal, if_neg (Nat.not_lt.mpr ha)]
  · refine .illegal ?_ hb
    simp only [Instr.illegalField, hi, firstIllegal, if_pos ha, if_neg (Nat.not_lt.mpr hb)]

/-- The inversion of `exec`. -/
theorem exec_ran {i : Instr} {s t : State} (h : exec i s = .next t) : Ran s i t := by
  cases i with
  | hlt => cases h; exact .hlt
  | ldi r v => exact withReg_ran rfl h .ldi
  | prn r => exact withReg_ran rfl h .prn
  | pra r => exact withReg_ran rfl h .pra
  | mul a b => exact withRegs_ran rfl h .mul
  | add a b => exact withRegs_ran rfl h .add
  | push r => exact withReg_ran rfl h .push
  | pop r => exact withReg_ran rfl h .pop
  | call r => exact withReg_ran rfl h .call
  | ret => cases h; exact .ret
  | st a b => exact withRegs_ran rfl h .st
  | jmp r => exact withReg_ran rfl h .jmp
  | iret => cases h; exact .iret
  | int x => cases h; exact .int

end Sys2Proof.Machine
end

