-- ==== Sys2Proof/Laws/PerInstr.lean ====
section
/-! SUPPORT. One family of statements about every instruction as syntax: an instruction is well-formed exactly when no
register field of it is illegal. -/

namespace Sys2Proof.Laws.WellFormedFields

/-- The two readings of 40_execution_cycle.md R105 agree on the instruction. -/
def Statement (i : Instr) : Prop := i.wellFormed = i.illegalField.isNone

/-- They agree on any list of register fields. -/
theorem all_eq_isNone (fs : List (OperandField × Byte)) :
    (fs.all fun f => decide (f.2.toNat < 8)) = (firstIllegal fs).isNone := by
  induction fs with
  | nil => rfl
  | cons f fs ih =>
    by_cases h : f.2.toNat < 8
    · simpa [firstIllegal, h] using ih
    · simp [firstIllegal, h]

theorem hlt : Statement .hlt := all_eq_isNone _
theorem ldi (r imm : Byte) : Statement (.ldi r imm) := all_eq_isNone _
theorem prn (r : Byte) : Statement (.prn r) := all_eq_isNone _
theorem pra (r : Byte) : Statement (.pra r) := all_eq_isNone _
theorem mul (a b : Byte) : Statement (.mul a b) := all_eq_isNone _
theorem add (a b : Byte) : Statement (.add a b) := all_eq_isNone _
theorem push (r : Byte) : Statement (.push r) := all_eq_isNone _
theorem pop (r : Byte) : Statement (.pop r) := all_eq_isNone _
theorem call (r : Byte) : Statement (.call r) := all_eq_isNone _
theorem ret : Statement .ret := all_eq_isNone _
theorem st (a b : Byte) : Statement (.st a b) := all_eq_isNone _
theorem jmp (r : Byte) : Statement (.jmp r) := all_eq_isNone _
theorem iret : Statement .iret := all_eq_isNone _
theorem int (operand : Byte) : Statement (.int operand) := all_eq_isNone _

end Sys2Proof.Laws.WellFormedFields
end

