-- ==== Sys2Proof/Tests/Slice0.lean ====
section
/-! SUPPORT. The model's own tests. The words and the expected results are those of spec/30_encoding.md and
spec/95_test_vectors.md (the vector's name stands before each test), never the model's own answer. The last part
shows, for every statement with hypotheses, a concrete state and operands that meet them. -/

namespace Sys2Proof.Tests

open Sys2Proof.Machine

/-! ### Decoding: one word per constructor, written out from 30_encoding.md -/

theorem test_decode_hlt : decodeTableWord 8 0b00000001 = some .hlt := by decide
theorem test_decode_ldi : decodeTableWord 24 0b00001000_00000011_10000010 = some (.ldi 3 8) := by decide
theorem test_decode_prn : decodeTableWord 16 0b00000011_01000111 = some (.prn 3) := by decide
theorem test_decode_pra : decodeTableWord 16 0b00000011_01001000 = some (.pra 3) := by decide
theorem test_decode_mul : decodeTableWord 24 0b00000010_00000001_10100010 = some (.mul 1 2) := by decide
theorem test_decode_add : decodeTableWord 24 0b00000010_00000001_10100000 = some (.add 1 2) := by decide
theorem test_decode_push : decodeTableWord 16 0b00000111_01000101 = some (.push 7) := by decide
theorem test_decode_pop : decodeTableWord 16 0b00000111_01000110 = some (.pop 7) := by decide
theorem test_decode_call : decodeTableWord 16 0b00000001_01010000 = some (.call 1) := by decide
theorem test_decode_ret : decodeTableWord 8 0b00010001 = some .ret := by decide
theorem test_decode_st : decodeTableWord 24 0b00000010_00000001_10000100 = some (.st 1 2) := by decide
theorem test_decode_jmp : decodeTableWord 16 0b00000010_01010100 = some (.jmp 2) := by decide
theorem test_decode_iret : decodeTableWord 8 0b00010011 = some .iret := by decide
theorem test_decode_int : decodeTableWord 16 0b11111111_01010010 = some (.int 0xFF) := by decide

/-- W9, and a zero byte (VC2): neither is an opcode. -/
theorem test_decode_refuses : decodeTableWord 8 0xFF = none ∧ decodeTableWord 8 0x00 = none := by decide

/-- Operand words of zeros where the table's bits stop at the opcode. -/
theorem test_decode_short_word : decodeTableWord 8 0x82 = some (.ldi 0 0) := by decide

/-- The encoder writes the bytes of the source's scenario (W3). -/
theorem test_encode_scenario :
    encode (.ldi 0 8) ++ encode (.prn 0) ++ encode .hlt = [0b10000010, 0, 8, 0b01000111, 0, 0b00000001] := by decide

/-- A declared operand that is not there is missed by its position; a recognised opcode comes first. -/
theorem test_decode_missing_operand :
    decode [0x47] = .error (.missingByte 1) ∧ decode [0x82, 0] = .error (.missingByte 2) ∧
    decode [0xC0] = .error (.unrecognized 0xC0) ∧ decode [] = .error (.missingByte 0) := ⟨rfl, rfl, rfl, rfl⟩

/-! ### WellFormed: an ill-formed term for each check -/

theorem smoke_illFormed_A : (Instr.ldi 8 0).wellFormed = false ∧ (Instr.prn 8).wellFormed = false ∧
    (Instr.pra 8).wellFormed = false ∧ (Instr.push 8).wellFormed = false ∧ (Instr.pop 255).wellFormed = false ∧
    (Instr.call 8).wellFormed = false ∧ (Instr.jmp 8).wellFormed = false ∧ (Instr.mul 8 0).wellFormed = false ∧
    (Instr.add 8 0).wellFormed = false ∧ (Instr.st 8 0).wellFormed = false := by decide
theorem smoke_illFormed_B : (Instr.mul 0 8).wellFormed = false ∧ (Instr.add 0 200).wellFormed = false ∧
    (Instr.st 0 8).wellFormed = false := by decide
/-- An immediate and INT's operand are not checked (VC12, VC13). -/
theorem smoke_wellFormed : (Instr.ldi 7 200).wellFormed = true ∧ (Instr.int 0xFF).wellFormed = true ∧
    (Instr.add 7 7).wellFormed = true := by decide

/-! ### One step on a small state -/

/-- A state with these bytes at `pc` and these registers, otherwise as after reset. -/
def bench (pc : PcWord) (bytes : List Byte) (regs : RegFile) : State :=
  { State.reset with pc := pc, regs := regs, mem := Memory.writeFrom [] pc.toNat bytes }

/-- The bench state with further memory bytes from address `a` on. -/
def withBytes (s : State) (a : Nat) (bytes : List Byte) : State := { s with mem := s.mem.writeFrom a bytes }

/-- All registers zero but R0, R1, R2 and SP. -/
def regs4 (x0 x1 x2 sp : Byte) : RegFile := { State.reset.regs with r0 := x0, r1 := x1, r2 := x2, r7 := sp }

/-- The outcome is a next state with this property. -/
def nextIs (o : Host.Outcome State Fault Refusal) (p : State → Bool) : Bool :=
  match o with
  | .next t => p t
  | .fault _ => false
  | .refused _ => false

/-- VC7. -/
theorem test_hlt_at_top : nextIs (step (bench 0xFF [0x01] State.reset.regs))
    (fun t => t.run == .halted && t.pc == 0x100 && t.fault == none && t.out == []) = true := by decide
/-- VA2. -/
theorem test_ldi_sp : nextIs (step (bench 0 [0x82, 7, 0x10] State.reset.regs))
    (fun t => t.sp == 0x10 && t.pc == 3) = true := by decide
/-- VC12. -/
theorem test_ldi_large_immediate : nextIs (step (bench 0 [0x82, 0, 0xC8] State.reset.regs))
    (fun t => t.readReg .r0 == 200 && t.pc == 3) = true := by decide
/-- VI5. -/
theorem test_prn_sp : nextIs (step (bench 0 [0x47, 7] State.reset.regs))
    (fun t => t.out == [⟨.dec, 244⟩] && t.pc == 2) = true := by decide
/-- VI4. -/
theorem test_pra : nextIs (step (bench 0 [0x48, 1] (regs4 0 0x41 0 0xF4)))
    (fun t => t.out == [⟨.chr, 0x41⟩] && t.pc == 2) = true := by decide
/-- VA9 (W2 corrected by C2). -/
theorem test_mul_wraps : nextIs (step (bench 0 [0xA2, 0, 1] (regs4 200 200 0 0xF4)))
    (fun t => t.readReg .r0 == 64 && t.readReg .r1 == 200) = true := by decide
/-- VA14: the source is also the destination. -/
theorem test_mul_square : nextIs (step (bench 0 [0xA2, 2, 2] (regs4 0 0 15 0xF4)))
    (fun t => t.readReg .r2 == 225) = true := by decide
/-- VA3 (W1). -/
theorem test_add_wraps : nextIs (step (bench 0 [0xA0, 0, 1] (regs4 200 100 0 0xF4)))
    (fun t => t.readReg .r0 == 44 && t.readReg .r1 == 100) = true := by decide
/-- VA16: ADD sets no flag. -/
theorem test_add_no_flag : nextIs (step (bench 0 [0xA0, 0, 1] (regs4 255 1 0 0xF4)))
    (fun t => t.readReg .r0 == 0 && t.fl == 0 && t.pc == 3) = true := by decide
/-- VS2: SP wraps below 0. -/
theorem test_push_wraps : nextIs (step (bench 0x10 [0x45, 0] (regs4 0x11 0 0 0x00)))
    (fun t => t.sp == 0xFF && t.memRead 0xFF == 0x11) = true := by decide
/-- VS3: PUSH R7 stores the decremented SP. -/
theorem test_push_sp : nextIs (step (bench 0 [0x45, 7] State.reset.regs))
    (fun t => t.sp == 0xF3 && t.memRead 0xF3 == 0xF3) = true := by decide
/-- VS5: SP wraps above 255. -/
theorem test_pop_wraps : nextIs (step (withBytes (bench 0 [0x46, 0] (regs4 0 0 0 0xFF)) 0xFF [0x09]))
    (fun t => t.readReg .r0 == 0x09 && t.sp == 0x00) = true := by decide
/-- VS6: POP R7 leaves the popped byte plus one. -/
theorem test_pop_sp : nextIs (step (withBytes (bench 0 [0x46, 7] (regs4 0 0 0 0xF3)) 0xF3 [0x80]))
    (fun t => t.sp == 0x81 && t.memRead 0xF3 == 0x80) = true := by decide
/-- VS8. -/
theorem test_st : nextIs (step (bench 0 [0x84, 0, 1] (regs4 0x80 0x07 0 0xF4)))
    (fun t => t.memRead 0x80 == 0x07 && t.sp == 0xF4 && t.pc == 3) = true := by decide
/-- VS9. -/
theorem test_st_same_register : nextIs (step (bench 0 [0x84, 2, 2] (regs4 0 0 0x90 0xF4)))
    (fun t => t.memRead 0x90 == 0x90) = true := by decide
/-- VT2: the return address 256 is stored as 0. -/
theorem test_call_at_top : nextIs (step (withBytes (bench 0xFE [0x50, 1] (regs4 0 0x10 0 0xF4)) 0xF3 [0x55]))
    (fun t => t.sp == 0xF3 && t.memRead 0xF3 == 0x00 && t.pc == 0x10) = true := by decide
/-- VT3: CALL R7 jumps to the decremented SP. -/
theorem test_call_sp : nextIs (step (bench 0x20 [0x50, 7] State.reset.regs))
    (fun t => t.sp == 0xF3 && t.memRead 0xF3 == 0x22 && t.pc == 0xF3) = true := by decide
/-- VT6. -/
theorem test_ret_wraps : nextIs (step (withBytes (bench 0 [0x11] (regs4 0 0 0 0xFF)) 0xFF [0x05]))
    (fun t => t.pc == 0x05 && t.sp == 0x00) = true := by decide
/-- VC8: a one-byte instruction at 0xFF reads nothing beyond. -/
theorem test_ret_at_top : nextIs (step (withBytes (bench 0xFF [0x11] State.reset.regs) 0xF4 [0x07]))
    (fun t => t.pc == 0x07 && t.sp == 0xF5 && t.fault == none) = true := by decide
/-- VT8. -/
theorem test_jmp : nextIs (step (bench 0x20 [0x54, 2] (regs4 0 0 0x05 0xF4)))
    (fun t => t.pc == 0x05 && t.sp == 0xF4) = true := by decide
/-- VN1 and VN3. -/
theorem test_iret : nextIs (step (withBytes (bench 0x30 [0x13] (regs4 9 9 9 0xEB)) 0xEB [6, 5, 4, 3, 2, 1, 0, 0x5A, 0x31]))
    (fun t => t.regs == ⟨0, 1, 2, 3, 4, 5, 6, 0xF4⟩ && t.fl == 0x5A && t.pc == 0x31) = true := by decide
/-- VN2: the frame wraps past 0xFF. -/
theorem test_iret_wraps : nextIs (step (withBytes (withBytes (bench 0x30 [0x13] (regs4 0 0 0 0xFA))
      0xFA [0x16, 0x15, 0x14, 0x13, 0x12, 0x11]) 0x00 [0x10, 0xAA, 0x40]))
    (fun t => t.regs == ⟨0x10, 0x11, 0x12, 0x13, 0x14, 0x15, 0x16, 0x03⟩ && t.fl == 0xAA && t.pc == 0x40) = true := by
  decide
/-- VC13 and VN4: INT's operand is not a register index, and IS is not written. -/
theorem test_int : nextIs (step (bench 0x08 [0x52, 0xFF] State.reset.regs))
    (fun t => t == { bench 0x08 [0x52, 0xFF] State.reset.regs with pc := 0x0A }) = true := by decide

/-! ### Faults -/

/-- The step takes exactly this fault: nothing but the engine state and the record changes. -/
def faultIs (s : State) (f : Fault) : Bool :=
  nextIs (step s) fun t => t == { s with run := .halted, fault := some ⟨f, s.pc⟩ }

/-- VC1 (W9) and VC4. -/
theorem test_fault_unrecognized : faultIs (bench 0 [0xFF] State.reset.regs) (.unrecognizedOpcode 0xFF) = true ∧
    faultIs (bench 0xFF [0xC0] State.reset.regs) (.unrecognizedOpcode 0xC0) = true := by decide
/-- VC6 and VT4. -/
theorem test_fault_operand_out_of_range :
    faultIs (bench 0xFE [0x82, 0] State.reset.regs) (.fetchOutOfRange 0x100) = true ∧
    faultIs (bench 0xFF [0x50] (regs4 0 0x10 0 0xF4)) (.fetchOutOfRange 0x100) = true := by decide
/-- The second cycle of VC5. -/
theorem test_fault_opcode_out_of_range :
    faultIs (bench 0x100 [] State.reset.regs) (.fetchOutOfRange 0x100) = true := by decide
/-- VC9, VC10 and VC11. -/
theorem test_fault_illegal_register :
    faultIs (bench 0 [0x47, 8] State.reset.regs) (.illegalRegister 8 .A) = true ∧
    faultIs (bench 0 [0xA0, 9, 10] State.reset.regs) (.illegalRegister 9 .A) = true ∧
    faultIs (bench 0 [0xA0, 0, 200] State.reset.regs) (.illegalRegister 200 .B) = true := by decide
/-- 60_exceptions.md R170: the codes. -/
theorem test_fault_codes : (Fault.unrecognizedOpcode 0).code = 1 ∧ (Fault.illegalRegister 8 .A).code = 2 ∧
    (Fault.fetchOutOfRange 256).code = 3 := by decide
/-- A HALTED machine stays as it is, its record too (R100, R172). -/
theorem test_halted_stays : nextIs (step ((bench 0 [0x82, 0, 1] State.reset.regs).takeFault (.unrecognizedOpcode 0)))
    (fun t => t == (bench 0 [0x82, 0, 1] State.reset.regs).takeFault (.unrecognizedOpcode 0)) = true := by decide

/-! ### Reset, load and memory -/

theorem reset_mem_wf : State.reset.mem.wf := by decide
/-- R191: bytes 0 to n-1 are the image; a zero byte is not listed. -/
theorem test_load : (State.reset.load [0x82, 0, 8]).map (·.mem) = some [(0, 0x82), (2, 8)] := by decide
/-- R191, D11: an image of 257 bytes is refused. -/
theorem test_load_refuses : State.reset.load (List.replicate 257 1) = none :=
  if_neg (by rw [List.length_replicate]; decide)
/-- Writing what an unlisted address reads as removes the entry. -/
theorem test_write_zero_removes : Memory.write [(3, 1), (5, 2)] 3 0 = [(5, 2)] := by decide
/-- The step after a placed word runs it, from reset. -/
theorem test_placed_word : nextIs (step (State.reset.withFetchWord 24 0x2A0582))
    (fun t => t.imReg == 42 && t.pc == 3) = true := by decide

/-! ### Witnesses: the hypotheses of the statements can be met -/

/-- A running bench with ST R0,R1 at address 0, whose store puts HLT right after itself. -/
def patcher : State := bench 0 [0x84, 0, 1] (regs4 3 0x01 0 0xF4)

/-- A HALTED machine that has met the fault of VC1. -/
def stopped : State := (bench 0 [0xFF] State.reset.regs).takeFault (.unrecognizedOpcode 0xFF)

theorem holdsAtPc_of_fetched {s : State} {i : Instr}
    (h : ∀ k, k < (encode i).length → s.pc.toNat + k < 256 ∧ some (s.mem.read (s.pc.toNat + k)) = (encode i)[k]?) :
    s.HoldsAtPc defaultOpcodeMap i := by
  intro k hk
  have hk' : k < (encode i).length := hk
  refine ⟨(h k hk').1, Option.some.inj ?_⟩
  rw [(h k hk').2, List.getElem?_eq_getElem hk']
  rfl

theorem witness_DecodedBytesAreTheEncoding : decodeWith defaultOpcodeMap [0x82, 0, 8, 1] = .ok (.ldi 0 8, [1]) := rfl
theorem witness_OpcodeBitsGiveTheLength : ((0xC0 : Byte).extractLsb 7 6).toNat = 3 ∧
    ((0xFF : Byte).extractLsb 7 6).toNat = 3 ∧
    decodeWith defaultOpcodeMap (0x01 :: []) = .ok (.hlt, []) := ⟨by decide, by decide, rfl⟩
theorem witness_CanonicalMemories : Memory.wf [(0, 1), (255, 2)] ∧
    ∀ a, a < 256 → Memory.read [(0, 1), (255, 2)] a = Memory.read [(0, 1), (255, 2)] a := ⟨by decide, fun _ _ => rfl⟩
/-- For the result statements of PRN, PRA, LDI, PUSH, POP, CALL, JMP, and for the pairs of CALL and RET. -/
theorem witness_one_register : Reg.ofByte? 0 = some .r0 ∧ Reg.ofByte? 7 = some .r7 := by decide
/-- For the result statements of ADD, MUL and ST, and RegisterArithmeticWrapsModulo256. -/
theorem witness_two_registers : Reg.ofByte? 7 = some .r7 ∧ Reg.ofByte? 0 = some .r0 := by decide
/-- POP's two clauses: a register other than SP, and SP. -/
theorem witness_PopReadsTheStackTop : Reg.ofByte? 6 = some .r6 ∧ (Reg.r6 ≠ .r7) ∧ Reg.ofByte? 7 = some .r7 := by decide
theorem witness_IllegalRegisterComesBeforeAnyEffect : 8 ≤ (8 : Byte).toNat ∧ 8 ≤ (255 : Byte).toNat ∧
    (7 : Byte).toNat < 8 := by decide
theorem witness_OnlyIllFormedInstructionsFault : (Instr.add 7 7).wellFormed = true ∧
    (Instr.add 7 8).wellFormed = false := by decide
/-- A clause each: pc at 256, an opcode outside the map at 255, one operand at 255, two at 254. -/
theorem witness_FaultsFollowTheOrderOfTheCycle :
    ((bench 256 [] State.reset.regs).run = .running ∧ 256 ≤ (bench 256 [] State.reset.regs).pc.toNat) ∧
    ((bench 255 [0xC0] State.reset.regs).run = .running ∧ (bench 255 [0xC0] State.reset.regs).pc.toNat < 256 ∧
      ∀ op ∈ Mnemonic.all, defaultOpcodeMap.byte op ≠ (bench 255 [0xC0] State.reset.regs).mem.read 255) ∧
    ((bench 255 [0x47] State.reset.regs).mem.read 255 = defaultOpcodeMap.byte .prn ∧ 1 ≤ Mnemonic.prn.operandCount) ∧
    ((bench 254 [0x82] State.reset.regs).mem.read 254 = defaultOpcodeMap.byte .ldi ∧
      Mnemonic.ldi.operandCount = 2) := by decide
/-- The fifth clause: an ill-formed instruction whose last byte is at address 255. -/
theorem witness_FaultsFollowTheOrderOfTheCycle_register :
    (bench 253 [0xA0, 7, 8] State.reset.regs).HoldsAtPc defaultOpcodeMap (.add 7 8) ∧
    (Instr.add 7 8).illegalField = some (.B, 8) := ⟨holdsAtPc_of_fetched (by decide), by decide⟩
theorem witness_RecognitionComesBeforeOperandFetch :
    (bench 255 [0x47] State.reset.regs).run = .running ∧ (bench 255 [0x47] State.reset.regs).pc.toNat < 256 ∧
    defaultOpcodeMap.byte .prn = (bench 255 [0x47] State.reset.regs).mem.read 255 ∧
    (bench 254 [0x47] State.reset.regs).fetch defaultOpcodeMap = .ok (.prn 0) := ⟨rfl, by decide, by decide, rfl⟩
/-- Also for the clause of ProgramCounterAfterEachInstruction about faults. -/
theorem witness_FaultsArePrecise : (bench 0 [0xFF] State.reset.regs).run = .running ∧
    (bench 0 [0xFF] State.reset.regs).fault = none ∧
    engine defaultOpcodeMap (bench 0 [0xFF] State.reset.regs) = .next stopped ∧ stopped.fault ≠ none :=
  ⟨rfl, rfl, rfl, by decide⟩
theorem stopped_inv : stopped.Inv defaultOpcodeMap where
  mem_wf := by decide
  pc_le := by decide
  fault_halted _ := rfl
  fault_true r h := by
    cases h
    exact ⟨rfl, by decide, by decide, fun op => by cases op <;> decide⟩
/-- The other two causes met at their edges: PRN at 255 lacks its declared operand, and ADD R7,R8 with its last byte
at 255 has field B illegal. -/
theorem witness_FaultsArePrecise_causes :
    (Fault.fetchOutOfRange 256).TrueOf defaultOpcodeMap (bench 255 [0x47] State.reset.regs) ∧
    faultIs (bench 255 [0x47] State.reset.regs) (.fetchOutOfRange 256) = true ∧
    (Fault.illegalRegister 8 .B).TrueOf defaultOpcodeMap (bench 253 [0xA0, 7, 8] State.reset.regs) ∧
    faultIs (bench 253 [0xA0, 7, 8] State.reset.regs) (.illegalRegister 8 .B) = true :=
  ⟨⟨by decide, .inr ⟨.prn, 1, by decide, by decide, by decide, by decide, by decide, by decide⟩⟩, by decide,
    ⟨by decide, .add 7 8, holdsAtPc_of_fetched (by decide), by decide⟩, by decide⟩
/-- R104: HLT at 255 declares no operand, so no address beyond it is a cause. -/
theorem test_undeclared_operand_is_no_cause :
    ¬ (Fault.fetchOutOfRange 256).TrueOf defaultOpcodeMap (bench 255 [0x01] State.reset.regs) := by
  rintro ⟨-, h | ⟨op, k, -, hb, hk, hc, -⟩⟩
  · exact absurd h (by decide)
  · obtain rfl : Mnemonic.hlt = op := defaultOpcodeMap.distinct _ _ hb
    have : k ≤ 0 := hc
    omega
/-- R105: neither INT's operand nor LDI's immediate is a register field, so neither is a cause. -/
theorem test_unchecked_byte_is_no_cause : ∀ f,
    ¬ (Fault.illegalRegister 0xFF f).TrueOf defaultOpcodeMap (bench 0 [0x52, 0xFF] State.reset.regs) ∧
    ¬ (Fault.illegalRegister 200 f).TrueOf defaultOpcodeMap (bench 0 [0x82, 0, 200] State.reset.regs) := by
  intro f
  constructor
  · rintro ⟨-, i, hi, hf⟩
    cases State.fetch_ok.mpr hi
    cases hf
  · rintro ⟨-, i, hi, hf⟩
    cases State.fetch_ok.mpr hi
    cases hf
theorem witness_FaultRecordsAreNeverCleared : stopped.Inv defaultOpcodeMap ∧
    stopped.fault = some ⟨.unrecognizedOpcode 0xFF, 0⟩ ∧
    step (bench 0 [0xFF] State.reset.regs) = .next stopped := ⟨stopped_inv, rfl, rfl⟩
theorem witness_StepRunsTheInstructionAtThePc : patcher.run = .running ∧
    patcher.HoldsAtPc defaultOpcodeMap (.st 0 1) := ⟨rfl, holdsAtPc_of_fetched (by decide)⟩
/-- A HLT that halts without a fault; a fault that halts; a HALTED engine. -/
theorem witness_OnlyHltOrAFaultHalts :
    engine defaultOpcodeMap (bench 255 [0x01] State.reset.regs) =
      .next ((bench 255 [0x01] State.reset.regs).halt.advance 1) ∧
    ((bench 255 [0x01] State.reset.regs).halt.advance 1).run = .halted ∧
    (bench 255 [0x01] State.reset.regs).run = .running ∧ (bench 255 [0x01] State.reset.regs).fault = none ∧
    stopped.run = .halted := ⟨rfl, rfl, rfl, rfl, rfl⟩
theorem witness_RunsEndNormallyOnlyByHlt :
    (bench 255 [0x01] State.reset.regs).fetch defaultOpcodeMap = .ok .hlt ∧
    engine defaultOpcodeMap (bench 255 [0x01] State.reset.regs) =
      .next ((bench 255 [0x01] State.reset.regs).halt.advance 1) ∧
    (bench 0 [0xFF] State.reset.regs).run = .running ∧ (bench 0 [0xFF] State.reset.regs).fault = none ∧
    engine defaultOpcodeMap (bench 0 [0xFF] State.reset.regs) = .next stopped := ⟨rfl, rfl, rfl, rfl, rfl⟩
/-- A state that meets the hypotheses with each instruction whose row of the table is written out. -/
theorem witness_ProgramCounterAfterEachInstruction :
    patcher.pc.toNat < 256 ∧ (∀ i ∈ [Instr.hlt, .ldi 7 0, .mul 7 7, .add 7 7, .st 7 7, .prn 7, .pra 7, .push 7,
      .pop 7, .int 255, .call 7, .jmp 7, .ret, .iret],
      i.wellFormed = true ∧ nextIs (exec i patcher) (fun _ => true) = true) ∧ Reg.ofByte? 7 = some .r7 := by decide
/-- IRET that changes FL. -/
theorem witness_OnlyIretWritesFl :
    nextIs (step (withBytes (bench 0 [0x13] (regs4 0 0 0 0x10)) 0x17 [0x5A]))
      (fun t => t.fl != 0 && t.fl == 0x5A) = true := by decide
/-- ST, PUSH and CALL that change a byte. -/
theorem witness_OnlyStPushAndCallWriteMemory :
    nextIs (step patcher) (fun t => t.memRead 3 != patcher.memRead 3) = true ∧
    nextIs (step (bench 0 [0x45, 0] (regs4 1 0 0 0))) (fun t => t.memRead 255 == 1) = true ∧
    nextIs (step (bench 0 [0x50, 0] (regs4 1 0 0 0))) (fun t => t.memRead 255 == 2) = true := by decide
/-- A register that changes, for each kind of writer. -/
theorem witness_RegistersChangeOnlyByTheirWriters :
    nextIs (step (bench 0 [0x82, 0, 1] (regs4 0 0 0 0))) (fun t => t.readReg .r0 != 0) = true ∧
    nextIs (step (bench 0 [0xA0, 0, 1] (regs4 0 1 0 0))) (fun t => t.readReg .r0 != 0) = true ∧
    nextIs (step (bench 0 [0x46, 0] (regs4 0 0 0 0))) (fun t => t.readReg .r0 != 0 && t.sp != 0) = true ∧
    nextIs (step (bench 0 [0x45, 0] (regs4 0 0 0 0))) (fun t => t.sp != 0) = true ∧
    nextIs (step (bench 0 [0x11] (regs4 0 0 0 0))) (fun t => t.sp != 0) = true ∧
    nextIs (step (bench 0 [0x13] (regs4 1 0 0 9))) (fun t => t.readReg .r0 != 1) = true := by decide
theorem witness_OutputGrowsOnlyByPrnAndPra :
    nextIs (step (bench 0 [0x47, 0] (regs4 5 0 0 0))) (fun t => t.out == [⟨.dec, 5⟩]) = true ∧
    nextIs (step (bench 0 [0x48, 0] (regs4 5 0 0 0))) (fun t => t.out == [⟨.chr, 5⟩]) = true := by decide
/-- The fetched instruction names registers 4 and 7, the neighbours of IM and IS. -/
theorem witness_InterruptRegistersAreInert : ∀ i,
    (bench 0 [0xA0, 4, 7] State.reset.regs).fetch defaultOpcodeMap = .ok i →
      i ≠ .iret ∧ ∀ f ∈ i.registerFields, f.2.toNat ≠ 5 ∧ f.2.toNat ≠ 6 := by
  intro i h
  cases h
  decide
/-- The three clauses: into another register, R7 from R7, R7 from another register. -/
theorem witness_PopAfterPushGivesTheValueBack : Reg.ofByte? 3 = some .r3 ∧ Reg.ofByte? 7 = some .r7 ∧
    (Reg.r3 ≠ .r7) := by decide
/-- Equal lengths with R7 among the pushed, and 256 pushes. -/
theorem witness_PushesUndoneByPops :
    ([7, 0] : List Byte).length = ([6, 0] : List Byte).length ∧ (∀ r ∈ ([7, 0] : List Byte), r.toNat < 8) ∧
    (∀ r ∈ ([6, 0] : List Byte), r.toNat < 7) ∧ (List.replicate 256 (6 : Byte)).length ≤ 256 ∧
    (∀ r ∈ List.replicate 256 (6 : Byte), r.toNat < 7) :=
  ⟨rfl, by decide, by decide, Nat.le_of_eq List.length_replicate, fun r h => by rw [List.eq_of_mem_replicate h]; decide⟩
/-- VT1's CALL, and a state after it that a subroutine has changed (FL and R0), with SP and the return byte kept. -/
theorem witness_RetAfterCallResumesAfterTheCall :
    ∃ t, Reg.ofByte? 1 = some .r1 ∧ exec (.call 1) (bench 0x10 [0x50, 1] (regs4 0 0x40 0 0xF4)) = .next t ∧
      ((t.writeReg .r0 9).setFl 1).sp = t.sp ∧
      ((t.writeReg .r0 9).setFl 1).memRead t.sp = t.memRead t.sp := ⟨_, rfl, rfl, rfl, rfl⟩
theorem witness_StoredInstructionRunsInTheNextCycle : patcher.run = .running ∧
    patcher.HoldsAtPc defaultOpcodeMap (.st 0 1) ∧ Reg.ofByte? 0 = some .r0 ∧ Reg.ofByte? 1 = some .r1 ∧
    (patcher.readReg .r0).toNat = patcher.pc.toNat + 3 ∧
    encodeWith defaultOpcodeMap .hlt = [patcher.readReg .r1] :=
  ⟨rfl, holdsAtPc_of_fetched (by decide), by decide, by decide, by decide, by decide⟩
/-- A running state with the invariant that steps to a faulting one; `stopped_inv` is a HALTED one. -/
theorem witness_StepKeepsTheInvariant : (bench 0 [0xFF] State.reset.regs).Inv defaultOpcodeMap ∧
    step (bench 0 [0xFF] State.reset.regs) = .next stopped where
  left := { mem_wf := by decide, pc_le := by decide, fault_halted := fun h => absurd rfl h,
            fault_true := fun _ h => by cases h }
  right := rfl
/-- Images of 256 and 257 bytes, the two sides of the limit. -/
theorem witness_LoadWritesOnlyTheImage : (List.replicate 256 (1 : Byte)).length ≤ 256 ∧
    256 < (List.replicate 257 (1 : Byte)).length ∧ State.reset.fault = none := 
  ⟨Nat.le_of_eq List.length_replicate, by rw [List.length_replicate]; decide, rfl⟩
/-- For RunsFromALoadedImageMeetTheInvariant. -/
theorem witness_RunsFromALoadedImage : ([] : List Byte).length ≤ 256 ∧
    (State.reset.load []).isSome = true := by decide
theorem witness_PlacedTableWordRunsNext : decodeTableWord 24 0x2A0582 = some (.ldi 5 42) ∧
    State.reset.mem.wf := by decide

end Sys2Proof.Tests
end

/-! Register arithmetic mod 256 (10_state.md R23): what ADD, MUL and the stack instructions answer when their operand
bytes name registers, and SP after each. -/

namespace Sys2Proof.Machine

section Answers

variable (s : State) {a b : Byte} {i j : Reg}

/-! ### The next state of an instruction whose operand bytes name registers -/

theorem exec_add_of_registers (ha : Reg.ofByte? a = some i) (hb : Reg.ofByte? b = some j) :
    exec (.add a b) s = .next ((s.writeReg i (aluAdd (s.readReg i) (s.readReg j))).advance 3) :=
  withRegs_some ha hb

theorem exec_mul_of_registers (ha : Reg.ofByte? a = some i) (hb : Reg.ofByte? b = some j) :
    exec (.mul a b) s = .next ((s.writeReg i (aluMul (s.readReg i) (s.readReg j))).advance 3) :=
  withRegs_some ha hb

theorem exec_push_of_register (ha : Reg.ofByte? a = some i) :
    exec (.push a) s = .next ((s.decSp.storeTop (s.decSp.readReg i)).advance 2) :=
  withReg_some ha

theorem exec_call_of_register (ha : Reg.ofByte? a = some i) :
    exec (.call a) s = .next ((s.decSp.storeTop s.returnByte).jump (s.decSp.readReg i)) :=
  withReg_some ha

theorem exec_pop_of_register (ha : Reg.ofByte? a = some i) :
    exec (.pop a) s = .next ((s.popReg i).advance 2) :=
  withReg_some ha

theorem exec_ret : exec .ret s = .next s.popPc := rfl

theorem exec_iret : exec .iret s = .next s.restoreFrame := rfl

/-! ### SP as a number -/

/-- The decrement of PUSH and CALL, which Nat subtraction cannot say: SP 0 goes to 255. -/
theorem decSp_sp_toNat : s.decSp.sp.toNat = (s.sp.toNat + 255) % 256 := by
  rw [State.sp_decSp, BitVec.toNat_sub, Nat.add_comm]
  rfl

/-- POP R7 overwrites SP with the popped byte before the increment (92_eei_decisions.md D22). -/
theorem popReg_sp_toNat (r : Reg) :
    (s.popReg r).sp.toNat = ((if r = .r7 then s.memRead s.sp else s.sp).toNat + 1) % 256 := by
  rw [State.sp_popReg, BitVec.toNat_add, State.top]
  simp only [eq_comm (a := Reg.r7)]
  rfl

end Answers

/-- Settles O35: each instruction's next state is known, and its register or SP is read off as a number. -/
theorem registerArithmeticWrapsModulo256 : Obligations.RegisterArithmeticWrapsModulo256 := by
  intro s a b i j ha hb
  refine ⟨⟨_, exec_add_of_registers s ha hb, ?add⟩, ⟨_, exec_mul_of_registers s ha hb, ?mul⟩,
    ⟨_, exec_push_of_register s ha, ?push⟩, ⟨_, exec_call_of_register s ha, ?call⟩,
    ⟨_, exec_pop_of_register s ha, ?pop⟩, ⟨_, exec_ret s, ?ret⟩, ⟨_, exec_iret s, ?iret⟩⟩
  case add => rw [State.readReg_advance, State.readReg_writeReg, if_pos rfl, aluAdd_toNat]
  case mul => rw [State.readReg_advance, State.readReg_writeReg, if_pos rfl, aluMul_toNat]
  case push => exact decSp_sp_toNat s
  case call => exact decSp_sp_toNat s
  case pop => exact popReg_sp_toNat s i
  case ret => exact BitVec.toNat_add s.sp 1
  case iret => rw [State.sp_restoreFrame, BitVec.toNat_add]; rfl

end Sys2Proof.Machine

/-! The opcode byte and the instruction's length (30_encoding.md R71), and what LDI does with its immediate (R74). -/

namespace Sys2Proof

/-! ### The operand count of an instruction -/

theorem Mnemonic.operandCount_mem (op : Mnemonic) : op.operandCount ∈ [0, 1, 2] := by
  cases op <;> decide

theorem Instr.operandBytes_length (i : Instr) : i.operandBytes.length = i.mnemonic.operandCount :=
  (Nat.succ.inj i.length_eq).symm

theorem encodeWith_length (m : OpcodeMap) (i : Instr) : (encodeWith m i).length = i.length :=
  i.length_eq.symm

/-- The length in terms of the opcode byte itself, which is all that a fetch knows first (R71). -/
theorem Instr.length_of_opcode (m : OpcodeMap) (i : Instr) :
    i.length = ((m.byte i.mnemonic).extractLsb 7 6).toNat + 1 := by
  rw [m.count_bits, Instr.length]

/-- No mnemonic has three operands, so no legal map uses a byte with 3 in bits 7:6. -/
theorem OpcodeMap.byte_ne_of_three_operands (m : OpcodeMap) {b : Byte} (h : (b.extractLsb 7 6).toNat = 3)
    (op : Mnemonic) : m.byte op ≠ b := by
  rintro rfl
  have hmem := op.operandCount_mem
  rw [← m.count_bits, h] at hmem
  exact absurd hmem (by decide)

/-! ### The decoder of a list of bytes -/

theorem decodeWith_ok {m : OpcodeMap} {bytes rest : List Byte} {i : Instr} :
    decodeWith m bytes = .ok (i, rest) ↔
      (decodeFrom m fun k => bytes[k]?) = .ok i ∧ rest = bytes.drop i.length := by
  unfold decodeWith
  cases decodeFrom m fun k => bytes[k]? with
  | error e => simp
  | ok j =>
    simp only [Except.ok.injEq, Prod.mk.injEq, eq_comm (a := rest)]
    exact and_congr_right fun hij => by rw [hij]

theorem decodeWith_unrecognized {m : OpcodeMap} {b : Byte} (h : ∀ op, m.byte op ≠ b) (rest : List Byte) :
    decodeWith m (b :: rest) = .error (.unrecognized b) := by
  rw [decodeWith, decodeFrom_unrecognized (by rfl) h]

theorem decodeWith_opcode {m : OpcodeMap} {b : Byte} {more rest : List Byte} {i : Instr}
    (h : decodeWith m (b :: more) = .ok (i, rest)) : b = m.byte i.mnemonic := by
  have hbytes := decodeFrom_ok.mp (decodeWith_ok.mp h).1
  exact Option.some.inj (hbytes 0 (by simp [encodeWith]))

/-- Settles O4: bits 7:6 of a mapped byte are its operand count, which is 0, 1 or 2, and what decodes starts with its
own mapped byte. -/
theorem opcodeBitsGiveTheLength : Obligations.OpcodeBitsGiveTheLength := by
  intro m
  refine ⟨fun i => ⟨?operands, ?encoding, ?movePc⟩, fun op => ?values, fun opcode rest h => ?three,
    fun opcode more rest i h => ?decoded⟩
  case operands => rw [m.count_bits, i.operandBytes_length]
  case encoding => rw [encodeWith_length, i.length_of_opcode m]
  case movePc => exact (encodeWith_length m i).symm
  case values =>
    rw [m.count_bits]
    exact op.operandCount_mem
  case three => exact decodeWith_unrecognized (m.byte_ne_of_three_operands h) rest
  case decoded =>
    have hlen : i.length = (opcode.extractLsb 7 6).toNat + 1 := by
      rw [decodeWith_opcode h, i.length_of_opcode m]
    exact ⟨hlen, hlen ▸ (decodeWith_ok.mp h).2⟩

end Sys2Proof

namespace Sys2Proof.Machine

theorem exec_ldi_of_register (s : State) {r : Byte} {q : Reg} (h : Reg.ofByte? r = some q) (imm : Byte) :
    exec (.ldi r imm) s = .next ((s.writeReg q imm).advance 3) :=
  withReg_some h

/-- Settles O11: the next state is one register write and an advance, and each leaves the rest as it was. -/
theorem ldiLoadsTheImmediate : Obligations.LdiLoadsTheImmediate := by
  intro s r imm q h
  refine ⟨_, exec_ldi_of_register s h imm, fun p => ?reg, rfl, rfl, rfl, rfl, rfl, rfl⟩
  case reg => rw [State.readReg_advance, State.readReg_writeReg]

end Sys2Proof.Machine

/-! The program counter after a step (40_execution_cycle.md R108): what the sequencer adds, and what a fault keeps. -/

namespace Sys2Proof

theorem Instr.illegalField_of_wellFormed {i : Instr} (h : i.wellFormed = true) : i.illegalField = none :=
  Option.isNone_iff_eq_none.mp ((Laws.WellFormedFields.all_eq_isNone i.registerFields).symm.trans h)

/-! ### Rows of the sequencer's table -/

theorem Instr.sequencer_row_three {i : Instr} {a b : Byte} (h : i ∈ [.ldi a b, .mul a b, .add a b, .st a b]) :
    i.branching = false ∧ i.length = 3 := by
  simp only [List.mem_cons, List.not_mem_nil, or_false] at h
  rcases h with rfl | rfl | rfl | rfl <;> exact ⟨rfl, rfl⟩

theorem Instr.sequencer_row_two {i : Instr} {r : Byte} (h : i ∈ [.prn r, .pra r, .push r, .pop r, .int r]) :
    i.branching = false ∧ i.length = 2 := by
  simp only [List.mem_cons, List.not_mem_nil, or_false] at h
  rcases h with rfl | rfl | rfl | rfl | rfl <;> exact ⟨rfl, rfl⟩

end Sys2Proof

namespace Sys2Proof.Machine

/-- No instruction is longer than three bytes, so the 9-bit addition does not wrap from a fetchable `pc`. -/
theorem State.advance_pc_toNat {s : State} {n : Nat} (h : s.pc.toNat < 256) (hn : n ≤ 3) :
    (s.advance n).pc.toNat = s.pc.toNat + n := by
  rw [State.advance_pc, BitVec.toNat_add, BitVec.toNat_ofNat]
  omega

theorem exec_jmp_of_register (s : State) {r : Byte} {q : Reg} (h : Reg.ofByte? r = some q) :
    exec (.jmp r) s = .next (s.jump (s.readReg q)) :=
  withReg_some h

theorem Ran.pc_toNat_of_not_branching {i : Instr} {s t : State} (h : Ran s i t) (hwf : i.wellFormed = true)
    (hb : i.branching = false) (hpc : s.pc.toNat < 256) : t.pc.toNat = s.pc.toNat + i.length := by
  cases h with
  | call | ret | jmp | iret => cases hb
  | illegal hi => cases hi.symm.trans (Instr.illegalField_of_wellFormed hwf)
  | _ => exact State.advance_pc_toNat hpc (by decide)

/-- An instruction's only access to the fault record is an illegal register, which moves nothing. -/
theorem Ran.fault_eq_or_pc_eq {i : Instr} {s t : State} (h : Ran s i t) : t.fault = s.fault ∨ t.pc = s.pc := by
  cases h with
  | illegal => exact .inr rfl
  | iret => exact .inl s.restoreFrame_fault
  | _ => exact .inl rfl

theorem engine_pc_of_fault_ne {m : OpcodeMap} {s t : State} (h : engine m s = .next t) (hf : t.fault ≠ s.fault) :
    t.pc = s.pc := by
  rcases engine_cases m s with ⟨-, e⟩ | ⟨-, f, -, e⟩ | ⟨-, i, -, e⟩
  · cases h.symm.trans e
    rfl
  · cases h.symm.trans e
    rfl
  · exact (exec_ran (e.symm.trans h)).fault_eq_or_pc_eq.resolve_left hf

/-- Settles O31: a non-branching instruction advances by its length, which gives the table's rows; each branching one
has its next state known. -/
theorem programCounterAfterEachInstruction : Obligations.ProgramCounterAfterEachInstruction := by
  refine ⟨fun i s t hpc hwf h => ?_, fun m s t hs h ht => engine_pc_of_fault_ne h (hs ▸ ht)⟩
  have advances : i.branching = false → t.pc.toNat = s.pc.toNat + i.length := fun hb =>
    (exec_ran h).pc_toNat_of_not_branching hwf hb hpc
  refine ⟨advances, ?hlt, fun a b hi => ?three, fun r hi => ?two, fun r q hi hq => ?call, fun r q hi hq => ?jmp,
    ?ret, ?iret⟩
  case hlt =>
    rintro rfl
    exact advances rfl
  case three =>
    obtain ⟨hb, hlen⟩ := Instr.sequencer_row_three hi
    exact hlen ▸ advances hb
  case two =>
    obtain ⟨hb, hlen⟩ := Instr.sequencer_row_two hi
    exact hlen ▸ advances hb
  case call =>
    subst hi
    cases h.symm.trans (exec_call_of_register s hq)
    exact zext9_toNat _
  case jmp =>
    subst hi
    cases h.symm.trans (exec_jmp_of_register s hq)
    exact zext9_toNat _
  case ret =>
    rintro rfl
    cases h.symm.trans (exec_ret s)
    exact zext9_toNat _
  case iret =>
    rintro rfl
    cases h.symm.trans (exec_iret s)
    rw [State.restoreFrame_pc, zext9_toNat]

end Sys2Proof.Machine

/-! Decoding inverts encoding (30_encoding.md, sections 1 to 4): a list decodes to an instruction exactly when that
instruction's encoding is its beginning. -/

namespace Sys2Proof

/-- The list decoder answers an instruction exactly when the list begins with its encoding, and leaves what follows. -/
theorem decodeWith_ok_iff_encodeWith {m : OpcodeMap} {bytes rest : List Byte} {i : Instr} :
    decodeWith m bytes = .ok (i, rest) ↔ bytes = encodeWith m i ++ rest := by
  rw [decodeWith_ok, decodeFrom_ok, ← List.prefix_iff_getElem?, ← encodeWith_length m]
  constructor
  · rintro ⟨hprefix, rfl⟩
    exact (List.prefix_iff_eq_append.mp hprefix).symm
  · rintro rfl
    exact ⟨List.prefix_append _ _, List.drop_left.symm⟩

/-- Settles O2: a list that begins with an encoding decodes to that instruction, with the rest left. -/
theorem decodeOfEncodeGivesTheInstruction : Obligations.DecodeOfEncodeGivesTheInstruction :=
  fun _ _ _ => decodeWith_ok_iff_encodeWith.mpr rfl

/-- Settles O3: a list that decodes begins with the encoding of what it decodes to. -/
theorem decodedBytesAreTheEncoding : Obligations.DecodedBytesAreTheEncoding :=
  fun _ _ _ _ => decodeWith_ok_iff_encodeWith.mp

/-- Settles O1: each word is the encoding of its instruction under the default map, so O2 decodes it. -/
theorem wordsOfTheOpcodeTableDecode : Obligations.WordsOfTheOpcodeTableDecode := by
  have key : ∀ i, decode (encode i ++ []) = .ok (i, []) := fun i =>
    decodeOfEncodeGivesTheInstruction defaultOpcodeMap i []
  exact ⟨key .hlt, key (.ldi 0 8), key (.prn 0), key (.pra 1), key (.mul 2 3), key (.add 2 3), key (.push 4),
    key (.pop 5), key (.call 6), key .ret, key (.st 2 3), key (.jmp 7), key .iret, key (.int 0xFF)⟩

/-! ### Unrecognized opcodes -/

theorem decodeFrom_unrecognized_iff {m : OpcodeMap} {get : Nat → Option Byte} {b : Byte} (h : get 0 = some b) :
    decodeFrom m get = .error (.unrecognized b) ↔ ∀ op, m.byte op ≠ b := by
  refine ⟨fun he => ?_, decodeFrom_unrecognized h⟩
  rcases decodeFrom_error he with ⟨he, -⟩ | ⟨b', he, -, hb'⟩ | ⟨op, -, ⟨he, -⟩ | ⟨he, -⟩⟩ <;> cases he
  exact hb'

theorem decodeWith_error {m : OpcodeMap} {bytes : List Byte} {e : DecodeError} :
    decodeWith m bytes = .error e ↔ (decodeFrom m fun k => bytes[k]?) = .error e := by
  unfold decodeWith
  cases decodeFrom m fun k => bytes[k]? <;> simp

theorem Mnemonic.nodup_all : Mnemonic.all.Nodup := by decide

/-- The 8-bit values a legal map recognises, as numbers, are the bytes of the mnemonics. -/
theorem OpcodeMap.recognised_perm (m : OpcodeMap) :
    ((List.range 256).filter fun n => (m.recognise (BitVec.ofNat 8 n)).isSome).Perm
      (Mnemonic.all.map fun op => (m.byte op).toNat) := by
  have hbytes : (Mnemonic.all.map fun op => (m.byte op).toNat).Nodup :=
    List.Pairwise.map _ (fun op op' hne h => hne (m.distinct op op' (BitVec.eq_of_toNat_eq h))) Mnemonic.nodup_all
  refine (List.perm_ext_iff_of_nodup (List.Pairwise.filter _ List.nodup_range) hbytes).mpr fun n => ?_
  simp only [List.mem_filter, List.mem_range, List.mem_map, Option.isSome_iff_exists]
  constructor
  · rintro ⟨hn, op, hop⟩
    exact ⟨op, op.mem_all, by rw [m.byte_of_recognise hop, BitVec.toNat_ofNat, Nat.mod_eq_of_lt hn]⟩
  · rintro ⟨op, -, rfl⟩
    exact ⟨(m.byte op).isLt, op, by rw [BitVec.ofNat_toNat, BitVec.setWidth_eq, m.recognise_byte]⟩

/-- Every legal map leaves 256 - 14 values unrecognized. -/
theorem OpcodeMap.unrecognized_count (m : OpcodeMap) :
    ((List.range 256).filter fun n => (m.recognise (BitVec.ofNat 8 n)).isNone).length = 242 := by
  have hsplit := List.length_eq_countP_add_countP (l := List.range 256)
    fun n => (m.recognise (BitVec.ofNat 8 n)).isSome
  have hmapped := m.recognised_perm.length_eq
  simp only [List.length_range, List.countP_eq_length_filter, List.length_map, Bool.not_eq_true,
    Option.isSome_eq_false_iff, Bool.decide_eq_true] at hsplit hmapped
  have hall : Mnemonic.all.length = 14 := rfl
  omega

/-- Settles O5: the decoder recognises the first byte before it reads any other, and a map has 14 distinct bytes. -/
theorem opcodesOutsideTheMapAreUnrecognized : Obligations.OpcodesOutsideTheMapAreUnrecognized :=
  ⟨fun _ _ _ => decodeWith_error.trans (decodeFrom_unrecognized_iff rfl), defaultOpcodeMap.unrecognized_count⟩

end Sys2Proof

/-! Operand bytes and registers (30_encoding.md R73). -/

namespace Sys2Proof.Machine

theorem Reg.index_injective : Function.Injective Reg.index := by
  intro q r
  cases q <;> cases r <;> decide

theorem Reg.ofByte?_eq_some {b : Byte} {q : Reg} : Reg.ofByte? b = some q ↔ b.toNat = q.index := by
  refine ⟨Reg.index_of_ofByte?, fun h => ?_⟩
  obtain ⟨r, hr⟩ := Reg.ofByte?_of_lt (h ▸ q.index_lt)
  rw [hr, Reg.index_injective ((Reg.index_of_ofByte? hr).symm.trans h)]

theorem Reg.lt_of_ofByte? {b : Byte} {q : Reg} (h : Reg.ofByte? b = some q) : b.toNat < 8 :=
  Reg.index_of_ofByte? h ▸ q.index_lt

theorem Reg.ne_of_ofByte? {b : Byte} {q r : Reg} (h : Reg.ofByte? b = some q) (hb : b.toNat ≠ r.index) : q ≠ r := by
  rintro rfl
  exact hb (Reg.index_of_ofByte? h)

/-- Settles O6: the two laws of `Reg.ofByte?`. -/
theorem operandBytesNameRegisters : Obligations.OperandBytesNameRegisters :=
  fun _ => ⟨fun _ => Reg.ofByte?_eq_some, Reg.ofByte?_eq_none⟩

end Sys2Proof.Machine

/-! Memory as a map from addresses to bytes (20_memory.md, sections 1 and 5). -/

namespace Sys2Proof.Machine

/-- Settles O7: by induction on the writes; the search from the last one back meets the first write last. -/
theorem readReturnsTheMostRecentWrite : Obligations.ReadReturnsTheMostRecentWrite := by
  intro s writes a
  induction writes generalizing s with
  | nil => rfl
  | cons w ws ih =>
    rw [List.foldl_cons, ih, List.reverse_cons, List.find?_append, State.memRead_memWrite]
    cases ws.reverse.find? fun w => w.1 == a with
    | some w' => rfl
    | none =>
      by_cases h : a = w.1
      · rw [if_pos h, Option.none_or, List.find?_singleton, if_pos (beq_iff_eq.mpr h.symm)]
      · rw [if_neg h, Option.none_or, List.find?_singleton, if_neg (mt beq_iff_eq.mp (Ne.symm h))]

/-! ### The canonical form is determined by what it reads -/

theorem Memory.read_of_mem {m : Memory} (h : List.Pairwise (fun c d : Host.Cell => c.1 < d.1) m) {c : Host.Cell}
    (hc : c ∈ m) : m.read c.1 = c.2 := by
  induction m with
  | nil => cases hc
  | cons d m ih =>
    obtain ⟨hlt, hm⟩ := List.pairwise_cons.mp h
    rcases List.mem_cons.mp hc with rfl | hc
    · simp [Memory.read]
    · simp [Memory.read, Nat.ne_of_lt (hlt c hc), ih hm hc]

theorem Memory.mem_of_read {m : Memory} {a : Nat} (h : m.read a ≠ Memory.unlisted) : (a, m.read a) ∈ m := by
  induction m with
  | nil => exact absurd rfl h
  | cons d m ih =>
    by_cases hd : d.1 = a
    · simp [Memory.read, ← hd]
    · simp only [Memory.read, if_neg hd] at h ⊢
      exact List.mem_cons_of_mem _ (ih h)

/-- The cells of a canonical memory are its non-zero bytes below address 256. -/
theorem Memory.mem_iff_read {m : Memory} (h : m.wf) {c : Host.Cell} :
    c ∈ m ↔ c.1 < 256 ∧ c.2 ≠ Memory.unlisted ∧ m.read c.1 = c.2 := by
  obtain ⟨hsorted, hcells⟩ := h
  constructor
  · intro hc
    obtain ⟨hlt, hne⟩ := hcells c hc
    exact ⟨hlt, hne, Memory.read_of_mem hsorted hc⟩
  · rintro ⟨-, hne, hread⟩
    have hmem := Memory.mem_of_read (hread ▸ hne)
    rwa [hread] at hmem

/-- Settles O8: both lists have the same cells, and a strictly rising list is determined by its members. -/
theorem canonicalMemoriesWithTheSameBytesAreEqual : Obligations.CanonicalMemoriesWithTheSameBytesAreEqual := by
  intro m m' hm hm' hread
  have hcells : ∀ c, c ∈ m ↔ c ∈ m' := fun c => by
    rw [Memory.mem_iff_read hm, Memory.mem_iff_read hm']
    exact and_congr_right fun hlt => by rw [hread c.1 hlt]
  have nodup : ∀ {l : Memory}, l.wf → l.Nodup := fun h => h.1.imp fun hlt he => by simp [he] at hlt
  exact ((List.perm_ext_iff_of_nodup (nodup hm) (nodup hm')).mpr hcells).eq_of_pairwise
    (fun c d _ _ hcd hdc => absurd hcd (Nat.lt_asymm hdc)) hm.1 hm'.1

end Sys2Proof.Machine

/-! What each instruction does and what it leaves unchanged (40 to 45 of the spec), when its operand bytes name
registers. -/

namespace Sys2Proof.Machine

section Answers

variable (s : State) {a b : Byte} {i j : Reg}

theorem exec_prn_of_register (ha : Reg.ofByte? a = some i) :
    exec (.prn a) s = .next ((s.emit .dec (s.readReg i)).advance 2) :=
  withReg_some ha

theorem exec_pra_of_register (ha : Reg.ofByte? a = some i) :
    exec (.pra a) s = .next ((s.emit .chr (s.readReg i)).advance 2) :=
  withReg_some ha

theorem exec_st_of_registers (ha : Reg.ofByte? a = some i) (hb : Reg.ofByte? b = some j) :
    exec (.st a b) s = .next ((s.memWrite (s.readReg i) (s.readReg j)).advance 3) :=
  withRegs_some ha hb

end Answers

@[simp] theorem State.memRead_storeTop (s : State) (v c : Byte) :
    (s.storeTop v).memRead c = if c = s.sp then v else s.memRead c :=
  s.memRead_memWrite s.sp c v

theorem State.returnByte_toNat (s : State) : s.returnByte.toNat = (s.pc.toNat + 2) % 256 := by
  rw [State.returnByte, low8_toNat, BitVec.toNat_add]
  exact Nat.mod_mod_of_dvd (s.pc.toNat + 2) (by decide : 256 ∣ 512)

/-! ### Instructions without a memory access -/

/-- Settles O9: HLT halts and advances. -/
theorem hltHaltsWithoutAFault : Obligations.HltHaltsWithoutAFault :=
  fun _ => rfl

/-- Settles O10: PRN and PRA emit one event and advance. -/
theorem prnAndPraEmitTheRegister : Obligations.PrnAndPraEmitTheRegister :=
  fun s _ _ hq => ⟨exec_prn_of_register s hq, exec_pra_of_register s hq⟩

/-- Settles O20: INT advances. -/
theorem intOnlyAdvances : Obligations.IntOnlyAdvances :=
  fun _ _ => rfl

/-- Settles O18: JMP jumps. -/
theorem jmpChangesOnlyTheProgramCounter : Obligations.JmpChangesOnlyTheProgramCounter :=
  fun s _ _ hq => ⟨_, exec_jmp_of_register s hq, zext9_toNat _, rfl⟩

/-- Settles O12: ADD and MUL each write the ALU's result to one register and advance. -/
theorem addAndMulWriteOnlyRegisterA : Obligations.AddAndMulWriteOnlyRegisterA := by
  intro s a b i j ha hb
  refine ⟨⟨_, exec_add_of_registers s ha hb, ?sum, fun p hp => ?sumFrame, rfl, rfl, rfl, rfl, rfl, rfl⟩,
    ⟨_, exec_mul_of_registers s ha hb, ?product, fun p hp => ?productFrame, rfl, rfl, rfl, rfl, rfl, rfl⟩⟩
  case sum => rw [State.readReg_advance, State.readReg_writeReg, if_pos rfl, aluAdd_toNat]
  case product => rw [State.readReg_advance, State.readReg_writeReg, if_pos rfl, aluMul_toNat]
  case sumFrame | productFrame => rw [State.readReg_advance, State.readReg_writeReg, if_neg hp]

/-! ### Instructions that access data memory -/

/-- Settles O15: ST is one memory write and an advance. -/
theorem stStoresAtTheAddressInRegisterA : Obligations.StStoresAtTheAddressInRegisterA := by
  intro s a b i j ha hb
  refine ⟨_, exec_st_of_registers s ha hb, ?stored, fun c hc => ?frame, rfl, rfl, rfl, rfl, rfl, rfl⟩
  case stored => rw [State.memRead_advance, State.memRead_memWrite, if_pos rfl]
  case frame => rw [State.memRead_advance, State.memRead_memWrite, if_neg hc]

/-- Settles O13: the register is read after SP is decremented, and stored at the decremented SP. -/
theorem pushStoresBelowTheStackTop : Obligations.PushStoresBelowTheStackTop := by
  intro s r q hq
  refine ⟨_, exec_push_of_register s hq, rfl, ?stored, fun a ha => ?memory, fun p hp => ?registers, rfl, rfl, rfl,
    rfl, rfl⟩
  case stored => rw [State.memRead_advance, State.memRead_storeTop, State.sp_decSp, if_pos rfl, State.readReg_decSp]
  case memory =>
    rw [State.memRead_advance, State.memRead_storeTop, State.sp_decSp, if_neg ha, State.memRead_decSp]
  case registers => rw [State.readReg_advance, State.readReg_storeTop, State.readReg_decSp, if_neg hp]

/-- Settles O16: CALL stores the return byte as PUSH stores a register, and jumps. -/
theorem callStoresTheReturnAddressAndJumps : Obligations.CallStoresTheReturnAddressAndJumps := by
  intro s r q hq
  refine ⟨_, exec_call_of_register s hq, rfl, ?stored, fun a ha => ?memory, ?target, fun p hp => ?registers, rfl, rfl,
    rfl, rfl⟩
  case stored =>
    rw [State.memRead_jump, State.memRead_storeTop, State.sp_decSp, if_pos rfl, State.returnByte_toNat]
  case memory => rw [State.memRead_jump, State.memRead_storeTop, State.sp_decSp, if_neg ha, State.memRead_decSp]
  case target => rw [State.jump_pc, zext9_toNat, State.readReg_decSp]
  case registers => rw [State.readReg_jump, State.readReg_storeTop, State.readReg_decSp, if_neg hp]

/-- Settles O14: what `popReg` leaves in each register, with the register SP and with another. -/
theorem popReadsTheStackTop : Obligations.PopReadsTheStackTop := by
  intro s r q hq
  refine ⟨_, exec_pop_of_register s hq, fun h => ⟨?popped, ?sp⟩, fun h => ?spPopped, fun p hp h7 => ?frame, rfl, rfl,
    rfl, rfl, rfl, rfl⟩
  case popped => rw [State.readReg_advance, State.readReg_popReg, if_neg h, if_pos rfl, State.top]
  case sp => rw [State.sp_advance, State.sp_popReg_ne s h]
  case spPopped => rw [State.sp_advance, State.sp_popReg, if_pos h.symm, State.top]
  case frame => rw [State.readReg_advance, State.readReg_popReg, if_neg h7, if_neg hp]

/-- Settles O17: RET is one pop into the program counter. -/
theorem retPopsTheProgramCounter : Obligations.RetPopsTheProgramCounter := by
  intro s
  refine ⟨_, exec_ret s, zext9_toNat _, rfl, fun p hp => ?registers, rfl, rfl, rfl, rfl, rfl⟩
  case registers => rw [State.readReg_popPc, if_neg hp]

/-- Settles O19: the nine pops, place by place. -/
theorem iretRestoresTheFrame : Obligations.IretRestoresTheFrame := by
  intro s
  have place := s.readReg_restoreFrame
  exact ⟨_, exec_iret s, place .r6, place .r5, place .r4, place .r3, place .r2, place .r1, place .r0,
    s.restoreFrame_fl, by rw [s.restoreFrame_pc, zext9_toNat], s.sp_restoreFrame, s.restoreFrame_mem,
    s.restoreFrame_run, s.restoreFrame_fault, s.restoreFrame_out⟩

end Sys2Proof.Machine

/-! Which instruction faults and what a fault is (40_execution_cycle.md R105, 60_exceptions.md R170, R171): the first
illegal field decides, and everything else completes. -/

namespace Sys2Proof

theorem firstIllegal_ge {fs : List (OperandField × Byte)} {f : OperandField} {b : Byte}
    (h : firstIllegal fs = some (f, b)) : 8 ≤ b.toNat := by
  induction fs with
  | nil => cases h
  | cons g gs ih =>
    unfold firstIllegal at h
    split at h
    · exact ih h
    · next hge =>
      cases h
      exact Nat.le_of_not_lt hge

theorem Instr.exists_illegalField {i : Instr} (h : i.wellFormed = false) : ∃ f b, i.illegalField = some (f, b) := by
  have hsome : i.illegalField.isNone = false := (Laws.WellFormedFields.all_eq_isNone i.registerFields).symm.trans h
  obtain ⟨⟨f, b⟩, hfb⟩ := Option.isSome_iff_exists.mp (Option.isNone_eq_false_iff.mp hsome)
  exact ⟨f, b, hfb⟩

/-! ### The first illegal field by format -/

theorem firstIllegal_A {a : Byte} {fs : List (OperandField × Byte)} (ha : 8 ≤ a.toNat) :
    firstIllegal ((.A, a) :: fs) = some (.A, a) :=
  if_neg (Nat.not_lt.mpr ha)

theorem firstIllegal_B {a b : Byte} (ha : a.toNat < 8) (hb : 8 ≤ b.toNat) :
    firstIllegal [(.A, a), (.B, b)] = some (.B, b) :=
  (if_pos ha).trans (if_neg (Nat.not_lt.mpr hb))

end Sys2Proof

namespace Sys2Proof.Machine

/-! ### Every instruction answers a next state -/

theorem withReg_total (a : Byte) (s : State) (effect : Reg → State) : ∃ t, withReg a s effect = .next t := by
  rcases withReg_cases a s effect with ⟨_, _, e⟩ | ⟨_, e⟩ <;> exact ⟨_, e⟩

theorem withRegs_total (a b : Byte) (s : State) (effect : Reg → Reg → State) :
    ∃ t, withRegs a b s effect = .next t := by
  rcases withRegs_cases a b s effect with ⟨_, _, _, _, e⟩ | ⟨_, e⟩ | ⟨_, _, e⟩ <;> exact ⟨_, e⟩

theorem exec_total (i : Instr) (s : State) : ∃ t, exec i s = .next t := by
  cases i with
  | hlt | ret | iret | int => exact ⟨_, rfl⟩
  | mul | add | st => exact withRegs_total _ _ _ _
  | _ => exact withReg_total _ _ _

/-! ### What a fault leaves -/

/-- An instruction whose operand bytes were all accepted has no illegal field, so an illegal one took the fault. -/
theorem Ran.eq_takeFault {i : Instr} {s t : State} {f : OperandField} {b : Byte} (h : Ran s i t)
    (hi : i.illegalField = some (f, b)) : t = s.takeFault (.illegalRegister b f) := by
  cases h with
  | illegal hi' =>
    cases hi'.symm.trans hi
    rfl
  | hlt | ret | iret | int => cases hi
  | mul hp hq | add hp hq | st hp hq =>
    simp [Instr.illegalField, Instr.registerFields, firstIllegal, Reg.lt_of_ofByte? hp, Reg.lt_of_ofByte? hq] at hi
  | ldi hq | prn hq | pra hq | push hq | pop hq | call hq | jmp hq =>
    simp [Instr.illegalField, Instr.registerFields, firstIllegal, Reg.lt_of_ofByte? hq] at hi

theorem exec_of_illegalField {i : Instr} {f : OperandField} {b : Byte} (hi : i.illegalField = some (f, b))
    (s : State) : exec i s = .next (s.takeFault (.illegalRegister b f)) := by
  obtain ⟨t, ht⟩ := exec_total i s
  rw [ht, (exec_ran ht).eq_takeFault hi]

theorem Ran.fault_eq {i : Instr} {s t : State} (h : Ran s i t) (hi : i.illegalField = none) : t.fault = s.fault := by
  cases h with
  | illegal hi' => cases hi.symm.trans hi'
  | iret => exact s.restoreFrame_fault
  | _ => rfl

/-- Settles O21: the field named is the first illegal one of each listed instruction. -/
theorem illegalRegisterComesBeforeAnyEffect : Obligations.IllegalRegisterComesBeforeAnyEffect := by
  intro s
  refine ⟨fun r hr i hi => ?oneRegister, fun r imm hr => ?immediate, fun a b ha i hi => ?fieldA,
    fun a b ha hb i hi => ?fieldB⟩ <;> refine exec_of_illegalField ?_ s
  case oneRegister =>
    simp only [List.mem_cons, List.not_mem_nil, or_false] at hi
    rcases hi with rfl | rfl | rfl | rfl | rfl | rfl <;> exact firstIllegal_A hr
  case immediate => exact firstIllegal_A hr
  case fieldA =>
    simp only [List.mem_cons, List.not_mem_nil, or_false] at hi
    rcases hi with rfl | rfl | rfl <;> exact firstIllegal_A ha
  case fieldB =>
    simp only [List.mem_cons, List.not_mem_nil, or_false] at hi
    rcases hi with rfl | rfl | rfl <;> exact firstIllegal_B ha hb

/-- Settles O22: an instruction without an illegal field keeps the record, and one with takes exactly that fault. -/
theorem onlyIllFormedInstructionsFault : Obligations.OnlyIllFormedInstructionsFault := by
  intro i s
  obtain ⟨t, ht⟩ := exec_total i s
  refine ⟨t, ht, fun hwf => ?wellFormed, fun hill => ?illFormed⟩
  case wellFormed =>
    have hnone := Instr.illegalField_of_wellFormed hwf
    exact ⟨hnone, (exec_ran ht).fault_eq hnone⟩
  case illFormed =>
    obtain ⟨f, b, hfb⟩ := Instr.exists_illegalField hill
    exact ⟨f, b, hfb, firstIllegal_ge hfb, (exec_ran ht).eq_takeFault hfb⟩

/-! ### The engine, by what stands at the program counter -/

theorem engine_of_holdsAtPc {m : OpcodeMap} {s : State} {i : Instr} (hs : s.run = .running) (h : s.HoldsAtPc m i) :
    engine m s = exec i s := by
  rw [engine_running hs, cycle_ok (State.fetch_ok.mpr h)]

theorem engine_of_decodeError {m : OpcodeMap} {s : State} {e : DecodeError} (hs : s.run = .running)
    (h : (decodeFrom m fun k => s.fetchByte? (s.fetchAddr k)) = .error e) :
    engine m s = .next (s.takeFault (faultOfDecodeError s e)) := by
  rw [engine_running hs]
  exact cycle_error (by rw [State.fetch, h])

theorem State.fetchByte?_zero {s : State} (h : s.pc.toNat < 256) :
    s.fetchByte? (s.fetchAddr 0) = some (s.mem.read s.pc.toNat) := by
  rw [State.fetchAddr_zero]
  exact State.fetchByte?_eq_some.mpr ⟨h, rfl⟩

theorem engine_unrecognized {m : OpcodeMap} {s : State} (hs : s.run = .running) (hpc : s.pc.toNat < 256)
    (h : ∀ op, m.byte op ≠ s.mem.read s.pc.toNat) :
    engine m s = .next (s.takeFault (.unrecognizedOpcode (s.mem.read s.pc.toNat))) :=
  engine_of_decodeError hs (decodeFrom_unrecognized (State.fetchByte?_zero hpc) h)

/-- The engine faults on the first operand byte that the mapped opcode at `pc` declares and that is out of range. -/
theorem engine_of_missingOperand {m : OpcodeMap} {s : State} {op : Mnemonic} {k : Nat} (hs : s.run = .running)
    (hpc : s.pc.toNat < 256) (hop : s.mem.read s.pc.toNat = m.byte op)
    (h : decodeOperands (fun k => s.fetchByte? (s.fetchAddr k)) op = .error (.missingByte k)) :
    engine m s = .next (s.takeFault (.fetchOutOfRange (s.fetchAddr k))) :=
  engine_of_decodeError hs ((decodeFrom_recognised (hop ▸ State.fetchByte?_zero hpc)).trans h)

/-- Settles O27: fetch answers the instruction whose bytes stand at the program counter. -/
theorem stepRunsTheInstructionAtThePc : Obligations.StepRunsTheInstructionAtThePc :=
  ⟨fun _ _ _ => engine_of_holdsAtPc, fun _ _ => engine_of_holdsAtPc⟩

/-- Settles O24: recognition reads one byte, and a mapped byte is that of the mnemonic fetched. -/
theorem recognitionComesBeforeOperandFetch : Obligations.RecognitionComesBeforeOperandFetch := by
  intro m s hs hpc
  refine ⟨engine_unrecognized hs hpc, fun op hop => ⟨?count, fun i hi => ?fetched⟩⟩
  case count => rw [← hop, m.count_bits]
  case fetched =>
    have hbyte : s.mem.read s.pc.toNat = m.byte i.mnemonic :=
      (State.fetch_ok.mp hi 0 (by simp [encodeWith])).2
    refine ⟨m.distinct _ _ (hbyte.symm.trans hop.symm), ?_, ?_⟩
    · rw [hbyte, m.count_bits, i.operandBytes_length]
    · rw [hbyte, i.length_of_opcode m]

theorem decodeOperands_missing_first {get : Nat → Option Byte} {op : Mnemonic} (h : get 1 = none)
    (hop : 1 ≤ op.operandCount) : decodeOperands get op = .error (.missingByte 1) := by
  cases op with
  | hlt | ret | iret => exact absurd hop (by decide)
  | _ => simp [decodeOperands, oneOperand, twoOperands, h]

theorem decodeOperands_missing_second {get : Nat → Option Byte} {op : Mnemonic} {a : Byte} (h1 : get 1 = some a)
    (h2 : get 2 = none) (hop : op.operandCount = 2) : decodeOperands get op = .error (.missingByte 2) := by
  cases op with
  | ldi | mul | add | st => simp [decodeOperands, twoOperands, h1, h2]
  | _ => exact absurd hop (by decide)

/-- Settles O23: fetch is decided byte by byte, and the register check comes with the instruction. -/
theorem faultsFollowTheOrderOfTheCycle : Obligations.FaultsFollowTheOrderOfTheCycle := by
  intro m s hs
  refine ⟨fun hpc => ?opcodeFetch, engine_unrecognized hs, fun op hpc hop hc => ?firstOperand,
    fun op hpc hop hc => ?secondOperand, fun i f b hi hf => ?register⟩
  case opcodeFetch =>
    have hnone : s.fetchByte? (s.fetchAddr 0) = none := by
      rw [State.fetchAddr_zero]
      exact State.fetchByte?_eq_none.mpr hpc
    have h := engine_of_decodeError hs (decodeFrom_no_opcode (m := m) hnone)
    rwa [faultOfDecodeError, State.fetchAddr_zero] at h
  case firstOperand =>
    have haddr : s.fetchAddr 1 = 256 := by rw [State.fetchAddr, hpc]; rfl
    have hnone : s.fetchByte? (s.fetchAddr 1) = none := State.fetchByte?_eq_none.mpr (by rw [haddr]; decide)
    have h := engine_of_missingOperand hs (by rw [hpc]; decide) (by rw [hpc]; exact hop)
      (decodeOperands_missing_first hnone hc)
    rw [h, haddr, State.takeFault, hpc]
  case secondOperand =>
    have haddr1 : s.fetchAddr 1 = 255 := by rw [State.fetchAddr, hpc]; rfl
    have haddr2 : s.fetchAddr 2 = 256 := by rw [State.fetchAddr, hpc]; rfl
    have hsome : s.fetchByte? (s.fetchAddr 1) = some (s.mem.read 255) :=
      State.fetchByte?_eq_some.mpr (by rw [haddr1]; exact ⟨by decide, rfl⟩)
    have hnone : s.fetchByte? (s.fetchAddr 2) = none := State.fetchByte?_eq_none.mpr (by rw [haddr2]; decide)
    have h := engine_of_missingOperand hs (by rw [hpc]; decide) (by rw [hpc]; exact hop)
      (decodeOperands_missing_second hsome hnone hc)
    rw [h, haddr2, State.takeFault, hpc]
  case register => exact (engine_of_holdsAtPc hs hi).trans (exec_of_illegalField hf s)

/-- Settles O30: a HALTED step, a fault of fetch and every instruction answer a next state. -/
theorem everyStepAnswersANextState : Obligations.EveryStepAnswersANextState := by
  intro m s
  rcases engine_cases m s with ⟨-, e⟩ | ⟨-, f, -, e⟩ | ⟨-, i, -, e⟩
  · exact ⟨_, e⟩
  · exact ⟨_, e⟩
  · exact e ▸ exec_total i s

end Sys2Proof.Machine

/-! What one step of the engine can do, once, and the rules of the whole machine that follow from it (10_state.md,
20_memory.md section 1, 60_exceptions.md). -/

namespace Sys2Proof.Machine

/-- Everything a step can do: nothing, one fault whose condition holds, or one instruction with legal fields. -/
theorem engine_inversion {m : OpcodeMap} {s t : State} (h : engine m s = .next t) :
    (s.run = .halted ∧ t = s) ∨
    (s.run = .running ∧ ∃ f : Fault, f.TrueOf m s ∧ t = s.takeFault f) ∨
    (s.run = .running ∧ ∃ i, s.fetch m = .ok i ∧ i.illegalField = none ∧ Ran s i t) := by
  rcases engine_cases m s with ⟨hs, e⟩ | ⟨hs, f, hf, e⟩ | ⟨hs, i, hi, e⟩
  · cases h.symm.trans e
    exact .inl ⟨hs, rfl⟩
  · cases h.symm.trans e
    exact .inr (.inl ⟨hs, f, (State.fetch_error hf).1, rfl⟩)
  · have hran : Ran s i t := exec_ran (e.symm.trans h)
    cases hfield : i.illegalField with
    | none => exact .inr (.inr ⟨hs, i, hi, hfield, hran⟩)
    | some fb =>
      have htrue : (Fault.illegalRegister fb.2 fb.1).TrueOf m s :=
        ⟨firstIllegal_ge hfield, i, State.fetch_ok.mp hi, hfield⟩
      exact .inr (.inl ⟨hs, _, htrue, hran.eq_takeFault hfield⟩)

/-! ### How a run ends -/

theorem engine_fault {m : OpcodeMap} {s t : State} (hs : s.fault = none) (h : engine m s = .next t)
    (ht : t.fault ≠ none) : ∃ f : Fault, f.TrueOf m s ∧ t = s.takeFault f := by
  rcases engine_inversion h with ⟨-, rfl⟩ | ⟨-, hf⟩ | ⟨-, i, -, hi, hran⟩
  · exact absurd hs ht
  · exact hf
  · exact absurd ((hran.fault_eq hi).trans hs) ht

/-- Settles O25: of what a step can do, only a fault writes a record. -/
theorem faultsArePrecise : Obligations.FaultsArePrecise :=
  fun _ _ _ _ hs h ht => engine_fault hs h ht

theorem core_run_of_halted {s : State} (h : s.run = .halted) (k : Nat) : Host.Core.run core k s = .next s := by
  have hstep : core.step s = .next s := engine_halted h
  induction k with
  | zero => rfl
  | succ k ih => simp only [Host.Core.run, hstep, ih]

/-- Settles O26: a state with a record is HALTED, and a run of a HALTED machine stays where it is. -/
theorem faultRecordsAreNeverCleared : Obligations.FaultRecordsAreNeverCleared := by
  refine ⟨fun s r hinv hr k => core_run_of_halted (hinv.fault_halted (hr ▸ Option.some_ne_none r)) k,
    fun s t r _ hs h hr k => ?_⟩
  obtain ⟨f, -, rfl⟩ := engine_fault hs h (hr ▸ Option.some_ne_none r)
  exact core_run_of_halted (s.takeFault_run f) k

/-- An instruction with legal fields leaves the engine RUNNING, unless it is HLT. -/
theorem Ran.run_eq {i : Instr} {s t : State} (h : Ran s i t) (hi : i.illegalField = none) (hne : i ≠ .hlt) :
    t.run = s.run := by
  cases h with
  | hlt => exact absurd rfl hne
  | illegal hi' => cases hi.symm.trans hi'
  | iret => exact s.restoreFrame_run
  | _ => rfl

theorem engine_halts {m : OpcodeMap} {s t : State} (hs : s.run = .running) (h : engine m s = .next t)
    (ht : t.run = .halted) : s.fetch m = .ok .hlt ∨ t.fault ≠ none := by
  rcases engine_inversion h with ⟨hs', -⟩ | ⟨-, f, -, rfl⟩ | ⟨-, i, hfetch, hi, hran⟩
  · cases hs.symm.trans hs'
  · exact .inr (Option.some_ne_none _)
  · by_cases hne : i = .hlt
    · exact .inl (hne ▸ hfetch)
    · cases ht.symm.trans ((hran.run_eq hi hne).trans hs)

theorem engine_of_fetch {m : OpcodeMap} {s : State} {i : Instr} (hs : s.run = .running) (h : s.fetch m = .ok i) :
    engine m s = exec i s :=
  engine_of_holdsAtPc hs (State.fetch_ok.mp h)

/-- Settles O29: HLT writes no record, and every other end of a run is a fault. -/
theorem runsEndNormallyOnlyByHlt : Obligations.RunsEndNormallyOnlyByHlt := by
  intro m s t hs hnone h
  refine ⟨⟨?normal, ?hlt⟩, ⟨?byFault, ?fault⟩⟩
  case normal =>
    rintro ⟨hrun, hfault⟩
    exact (engine_halts hs h hrun).resolve_right (absurd hfault)
  case hlt =>
    intro hfetch
    have hexec : exec .hlt s = .next t := (engine_of_fetch hs hfetch).symm.trans h
    cases hexec
    exact ⟨rfl, hnone⟩
  case byFault =>
    rintro ⟨-, hfault⟩
    exact engine_fault hnone h hfault
  case fault =>
    rintro ⟨f, -, rfl⟩
    exact ⟨rfl, Option.some_ne_none _⟩

/-- Settles O28: the ways a step can halt, HLT keeping the absent record. -/
theorem onlyHltOrAFaultHalts : Obligations.OnlyHltOrAFaultHalts := by
  refine ⟨rfl, fun m s => engine_halted, fun m s => engine_running, fun m s t hs hnone h ht => ?_⟩
  by_cases hfault : t.fault = none
  · exact .inl ⟨(engine_halts hs h ht).resolve_right (absurd hfault), hfault⟩
  · exact .inr hfault

/-! ### Who writes what -/

theorem Ran.fl_eq {i : Instr} {s t : State} (h : Ran s i t) (hi : i ≠ .iret) : t.fl = s.fl := by
  cases h with
  | iret => exact absurd rfl hi
  | _ => rfl

/-- Settles O32: a HALTED step and a fault write no FL, and IRET is the only instruction that does. -/
theorem onlyIretWritesFl : Obligations.OnlyIretWritesFl := by
  intro m s t h hfl
  rcases engine_inversion h with ⟨-, rfl⟩ | ⟨-, f, -, rfl⟩ | ⟨hs, i, hi, -, hran⟩
  · exact absurd rfl hfl
  · exact absurd rfl hfl
  · by_cases hiret : i = .iret
    · exact ⟨hs, hiret ▸ hi⟩
    · exact absurd (hran.fl_eq hiret) hfl

/-- The three instructions that write memory, and where. -/
theorem Ran.memRead_ne {i : Instr} {s t : State} {a : Byte} (h : Ran s i t) (ha : t.memRead a ≠ s.memRead a) :
    (∃ x y q, i = .st x y ∧ Reg.ofByte? x = some q ∧ a = s.readReg q) ∨
    (∃ r, i = .push r ∧ a = s.decSp.sp) ∨ (∃ r, i = .call r ∧ a = s.decSp.sp) := by
  cases h with
  | @st x y p q hp hq =>
    refine .inl ⟨x, y, p, rfl, hp, Classical.byContradiction fun hne => ha ?_⟩
    rw [State.memRead_advance, State.memRead_memWrite, if_neg hne]
  | @push r q hq =>
    refine .inr (.inl ⟨r, rfl, Classical.byContradiction fun hne => ha ?_⟩)
    rw [State.memRead_advance, State.memRead_storeTop, if_neg hne, State.memRead_decSp]
  | @call r q hq =>
    refine .inr (.inr ⟨r, rfl, Classical.byContradiction fun hne => ha ?_⟩)
    rw [State.memRead_jump, State.memRead_storeTop, if_neg hne, State.memRead_decSp]
  | iret => exact absurd (congrArg (·.read a.toNat) s.restoreFrame_mem) ha
  | _ => exact absurd rfl ha

/-- Settles O33: a HALTED step and a fault write no memory, and three instructions write one byte each. -/
theorem onlyStPushAndCallWriteMemory : Obligations.OnlyStPushAndCallWriteMemory := by
  intro m s t a h ha
  rcases engine_inversion h with ⟨-, rfl⟩ | ⟨-, f, -, rfl⟩ | ⟨-, i, hi, -, hran⟩
  · exact absurd rfl ha
  · exact absurd rfl ha
  · rcases hran.memRead_ne ha with ⟨x, y, q, rfl, hq, hw⟩ | ⟨r, rfl, hw⟩ | ⟨r, rfl, hw⟩
    · exact .inl ⟨x, y, q, hi, hq, hw⟩
    · exact .inr (.inl ⟨r, hi, hw⟩)
    · exact .inr (.inr ⟨r, hi, hw⟩)

/-- A register that an update by `writeReg` changes is the one it names. -/
theorem State.eq_of_readReg_writeReg_ne {s : State} {p q : Reg} {v : Byte}
    (h : (s.writeReg p v).readReg q ≠ s.readReg q) : q = p :=
  Classical.byContradiction fun hne => h (by rw [State.readReg_writeReg, if_neg hne])

/-- The table of register writers, for one instruction (10_state.md R22). -/
theorem Ran.readReg_ne {i : Instr} {s t : State} {q : Reg} (h : Ran s i t) (hq : t.readReg q ≠ s.readReg q) :
    (∃ r imm, i = .ldi r imm ∧ Reg.ofByte? r = some q) ∨
    (∃ a b, (i = .add a b ∨ i = .mul a b) ∧ Reg.ofByte? a = some q) ∨
    (∃ r, i = .pop r ∧ (Reg.ofByte? r = some q ∨ q = .r7)) ∨
    ((∃ r, i = .push r ∨ i = .call r) ∧ q = .r7) ∨
    (i = .ret ∧ q = .r7) ∨ i = .iret := by
  cases h with
  | @ldi r v p hp =>
    obtain rfl := State.eq_of_readReg_writeReg_ne hq
    exact .inl ⟨r, v, rfl, hp⟩
  | @add a b p _ hp =>
    obtain rfl := State.eq_of_readReg_writeReg_ne hq
    exact .inr (.inl ⟨a, b, .inl rfl, hp⟩)
  | @mul a b p _ hp =>
    obtain rfl := State.eq_of_readReg_writeReg_ne hq
    exact .inr (.inl ⟨a, b, .inr rfl, hp⟩)
  | @pop r p hp =>
    refine .inr (.inr (.inl ⟨r, rfl, Decidable.or_iff_not_imp_right.mpr fun h7 => ?_⟩))
    rw [State.readReg_advance, State.readReg_popReg, if_neg h7] at hq
    rwa [show q = p from Classical.byContradiction fun hne => hq (if_neg hne)]
  | @push r => exact .inr (.inr (.inr (.inl ⟨⟨r, .inl rfl⟩, State.eq_of_readReg_writeReg_ne hq⟩)))
  | @call r => exact .inr (.inr (.inr (.inl ⟨⟨r, .inr rfl⟩, State.eq_of_readReg_writeReg_ne hq⟩)))
  | ret => exact .inr (.inr (.inr (.inr (.inl ⟨rfl, State.eq_of_readReg_writeReg_ne hq⟩))))
  | iret => exact .inr (.inr (.inr (.inr (.inr rfl))))
  | _ => exact absurd rfl hq

/-- Settles O34: a HALTED step and a fault write no register, and each instruction only those its row lists. -/
theorem registersChangeOnlyByTheirWriters : Obligations.RegistersChangeOnlyByTheirWriters := by
  intro m s t q h hq
  rcases engine_inversion h with ⟨-, rfl⟩ | ⟨-, f, -, rfl⟩ | ⟨-, i, hi, -, hran⟩
  · exact absurd rfl hq
  · exact absurd rfl hq
  · exact ⟨i, hi, hran.readReg_ne hq⟩

/-- The output after one instruction. -/
theorem Ran.out_cases {i : Instr} {s t : State} (h : Ran s i t) :
    t.out = s.out ∨ ∃ r q, Reg.ofByte? r = some q ∧
      ((i = .prn r ∧ t.out = s.out ++ [⟨.dec, s.readReg q⟩]) ∨
       (i = .pra r ∧ t.out = s.out ++ [⟨.chr, s.readReg q⟩])) := by
  cases h with
  | @prn r q hq => exact .inr ⟨r, q, hq, .inl ⟨rfl, rfl⟩⟩
  | @pra r q hq => exact .inr ⟨r, q, hq, .inr ⟨rfl, rfl⟩⟩
  | iret => exact .inl s.restoreFrame_out
  | _ => exact .inl rfl

/-- Settles O36: a HALTED step and a fault emit nothing, and PRN and PRA one event each. -/
theorem outputGrowsOnlyByPrnAndPra : Obligations.OutputGrowsOnlyByPrnAndPra := by
  intro m s t h
  rcases engine_inversion h with ⟨-, rfl⟩ | ⟨-, f, -, rfl⟩ | ⟨-, i, hi, -, hran⟩
  · exact .inl rfl
  · exact .inl rfl
  · refine hran.out_cases.imp_right ?_
    rintro ⟨r, q, hq, ⟨rfl, hout⟩ | ⟨rfl, hout⟩⟩
    · exact ⟨r, q, hq, .inl ⟨hi, hout⟩⟩
    · exact ⟨r, q, hq, .inr ⟨hi, hout⟩⟩

/-! ### The invariant -/

theorem Fault.trueOf_takeFault {m : OpcodeMap} {s : State} {f g : Fault} :
    f.TrueOf m (s.takeFault g) ↔ f.TrueOf m s := by
  cases f <;> exact Iff.rfl

theorem Ran.mem_wf {i : Instr} {s t : State} (h : Ran s i t) (hs : s.mem.wf) : t.mem.wf := by
  cases h with
  | st => exact State.memWrite_wf hs _ _
  | push | call => exact State.storeTop_wf (s := s.decSp) hs _
  | iret => rwa [s.restoreFrame_mem]
  | _ => exact hs

/-- From a fetchable `pc` an instruction moves it by at most three, or to a byte (10_state.md R26). -/
theorem Ran.pc_le {i : Instr} {s t : State} (h : Ran s i t) (hs : s.pc.toNat < 256) : t.pc.toNat ≤ 258 := by
  have advance_le : ∀ {n}, n ≤ 3 → (s.pc + BitVec.ofNat 9 n).toNat ≤ 258 := fun {n} hn => by
    have := State.advance_pc_toNat hs hn
    rw [State.advance_pc] at this
    omega
  have byte_le : ∀ b : Byte, (zext9 b).toNat ≤ 258 := fun b => by
    have := b.isLt
    rw [zext9_toNat]
    omega
  cases h with
  | call | ret | jmp => exact byte_le _
  | iret =>
    rw [s.restoreFrame_pc]
    exact byte_le _
  | illegal => exact Nat.le_trans (Nat.le_of_lt hs) (by decide)
  | _ => exact advance_le (by decide)

theorem State.fetch_ok_pc_lt {m : OpcodeMap} {s : State} {i : Instr} (h : s.fetch m = .ok i) : s.pc.toNat < 256 :=
  (State.fetch_ok.mp h 0 (by simp [encodeWith])).1

theorem State.Inv.takeFault {m : OpcodeMap} {s : State} {f : Fault} (h : s.Inv m) (hf : f.TrueOf m s) :
    (s.takeFault f).Inv m where
  mem_wf := h.mem_wf
  pc_le := h.pc_le
  fault_halted _ := rfl
  fault_true r hr := by
    cases hr
    exact ⟨rfl, Fault.trueOf_takeFault.mpr hf⟩

/-- A state without a record meets the invariant as soon as its memory and `pc` do. -/
theorem State.inv_of_no_fault {m : OpcodeMap} {s : State} (hmem : s.mem.wf) (hpc : s.pc.toNat ≤ 258)
    (hfault : s.fault = none) : s.Inv m where
  mem_wf := hmem
  pc_le := hpc
  fault_halted h := absurd hfault h
  fault_true r hr := by cases hfault.symm.trans hr

theorem State.Inv.fault_eq_none {m : OpcodeMap} {s : State} (h : s.Inv m) (hs : s.run = .running) :
    s.fault = none :=
  Classical.byContradiction fun hne => by cases hs.symm.trans (h.fault_halted hne)

theorem engine_keeps_inv {m : OpcodeMap} {s t : State} (hs : s.Inv m) (h : engine m s = .next t) : t.Inv m := by
  rcases engine_inversion h with ⟨-, rfl⟩ | ⟨-, f, hf, rfl⟩ | ⟨hrun, i, hfetch, hi, hran⟩
  · exact hs
  · exact hs.takeFault hf
  · exact State.inv_of_no_fault (hran.mem_wf hs.mem_wf) (hran.pc_le (State.fetch_ok_pc_lt hfetch))
      ((hran.fault_eq hi).trans (hs.fault_eq_none hrun))

/-- Settles O45: a HALTED step changes nothing, a fault records a true cause, and an instruction writes memory at byte
addresses, moves `pc` from below 256 and leaves the absent record. -/
theorem stepKeepsTheInvariant : Obligations.StepKeepsTheInvariant :=
  ⟨fun _ _ _ => engine_keeps_inv, fun _ _ => engine_keeps_inv⟩

/-- Settles O44: no cell is listed after reset, and there is no record. -/
theorem resetMeetsTheInvariant : Obligations.ResetMeetsTheInvariant :=
  fun _ => State.inv_of_no_fault State.reset_mem_wf (by decide) rfl

/-- Settles O43: the values `State.reset` gives. -/
theorem resetValues : Obligations.ResetValues := by
  refine ⟨rfl, fun q hq => ?registers, rfl, rfl, fun _ => rfl, rfl, rfl, rfl⟩
  case registers =>
    cases q with
    | r7 => exact absurd rfl hq
    | _ => rfl

end Sys2Proof.Machine

/-! The stack discipline, call linkage and the interrupt frame (43 to 45 of the spec): what is pushed comes back. -/

namespace Sys2Proof.Machine

/-! ### Straight-line programs -/

theorem execAll_cons {i : Instr} {is : List Instr} {s t : State} (h : exec i s = .next t) :
    execAll (i :: is) s = execAll is t := by
  simp only [execAll, h]

theorem execAll_append {is js : List Instr} {s t : State} (h : execAll is s = .next t) :
    execAll (is ++ js) s = execAll js t := by
  induction is generalizing s with
  | nil =>
    cases h
    rfl
  | cons i is ih =>
    obtain ⟨u, hu⟩ := exec_total i s
    rw [execAll_cons hu] at h
    rw [List.cons_append, execAll_cons hu, ih h]

/-! ### One push, one pop -/

/-- The state after PUSH of register `q`. -/
def State.pushed (s : State) (q : Reg) : State := (s.decSp.storeTop (s.decSp.readReg q)).advance 2

theorem exec_push_pushed (s : State) {r : Byte} {q : Reg} (h : Reg.ofByte? r = some q) :
    exec (.push r) s = .next (s.pushed q) :=
  exec_push_of_register s h

@[simp] theorem State.sp_pushed (s : State) (q : Reg) : (s.pushed q).sp = s.sp - 1 := rfl

@[simp] theorem State.readReg_pushed (s : State) (q p : Reg) :
    (s.pushed q).readReg p = if p = .r7 then s.sp - 1 else s.readReg p :=
  s.readReg_decSp p

@[simp] theorem State.memRead_pushed (s : State) (q : Reg) (a : Byte) :
    (s.pushed q).memRead a =
      if a = s.sp - 1 then (if q = .r7 then s.sp - 1 else s.readReg q) else s.memRead a := by
  rw [State.pushed, State.memRead_advance, State.memRead_storeTop, State.readReg_decSp]
  rfl

/-- The top of the stack after a PUSH is what was pushed, the decremented SP for R7 (92_eei_decisions.md D22). -/
theorem State.top_pushed (s : State) (q : Reg) :
    (s.pushed q).top = if q = .r7 then s.sp - 1 else s.readReg q := by
  rw [State.top, State.sp_pushed, State.memRead_pushed, if_pos rfl]

/-- Settles O38: POP reads the byte that PUSH left at the top. -/
theorem popAfterPushGivesTheValueBack : Obligations.PopAfterPushGivesTheValueBack := by
  intro s r r' q q' hq hq'
  refine ⟨((s.pushed q).popReg q').advance 2, ?run, fun h => ⟨?value, ?spBack⟩, fun h h7 => ?sevenFromSeven,
    fun h h7 => ?sevenFromOther⟩
  case run => rw [execAll_cons (exec_push_pushed s hq), execAll_cons (exec_pop_of_register _ hq'), execAll]
  case value => rw [State.readReg_advance, State.readReg_popReg, if_neg h, if_pos rfl, State.top_pushed]
  case spBack => rw [State.sp_advance, State.sp_popReg_ne _ h, State.sp_pushed, BitVec.sub_add_cancel]
  case sevenFromSeven =>
    rw [State.sp_advance, State.sp_popReg, if_pos h.symm, State.top_pushed, if_pos h7, BitVec.sub_add_cancel]
  case sevenFromOther => rw [State.sp_advance, State.sp_popReg, if_pos h.symm, State.top_pushed, if_neg h7]

/-! ### Any number of pushes and pops -/

theorem execAll_pushes_sp {rs : List Byte} (hrs : ∀ r ∈ rs, r.toNat < 8) (s : State) :
    ∃ t, execAll (rs.map .push) s = .next t ∧ t.sp = s.sp - BitVec.ofNat 8 rs.length := by
  induction rs generalizing s with
  | nil => exact ⟨s, rfl, (BitVec.sub_zero _).symm⟩
  | cons r rs ih =>
    obtain ⟨hr, hrs⟩ := List.forall_mem_cons.mp hrs
    obtain ⟨q, hq⟩ := Reg.ofByte?_of_lt hr
    obtain ⟨t, ht, hsp⟩ := ih hrs (s.pushed q)
    refine ⟨t, ?_, ?_⟩
    · rw [List.map_cons, execAll_cons (exec_push_pushed s hq), ht]
    · rw [hsp, State.sp_pushed, List.length_cons, BitVec.ofNat_add]
      bv_omega

theorem Reg.ne_r7_of_lt {b : Byte} {q : Reg} (h : Reg.ofByte? b = some q) (hb : b.toNat < 7) : q ≠ .r7 :=
  Reg.ne_of_ofByte? h (Nat.ne_of_lt hb)

theorem execAll_pops_sp {rs : List Byte} (hrs : ∀ r ∈ rs, r.toNat < 7) (s : State) :
    ∃ t, execAll (rs.map .pop) s = .next t ∧ t.sp = s.sp + BitVec.ofNat 8 rs.length := by
  induction rs generalizing s with
  | nil => exact ⟨s, rfl, (BitVec.add_zero _).symm⟩
  | cons r rs ih =>
    obtain ⟨hr, hrs⟩ := List.forall_mem_cons.mp hrs
    obtain ⟨q, hq⟩ := Reg.ofByte?_of_lt (Nat.lt_succ_of_lt hr)
    obtain ⟨t, ht, hsp⟩ := ih hrs ((s.popReg q).advance 2)
    refine ⟨t, ?_, ?_⟩
    · rw [List.map_cons, execAll_cons (exec_pop_of_register s hq), ht]
    · rw [hsp, State.sp_advance, State.sp_popReg_ne s (Reg.ne_r7_of_lt hq hr), List.length_cons, BitVec.ofNat_add]
      bv_omega

/-- PUSH and POP of one register around code that brings back the registers and the byte that was pushed. -/
theorem State.regs_popReg_of_pushed {s u : State} {q : Reg} (hq : q ≠ .r7) (hregs : u.regs = (s.pushed q).regs)
    (htop : u.top = (s.pushed q).top) : (u.popReg q).regs = s.regs := by
  have hread : ∀ p, u.readReg p = (s.pushed q).readReg p := fun p => congrArg (·.get p) hregs
  refine RegFile.ext_get _ _ fun p => ?_
  change (u.popReg q).readReg p = s.readReg p
  by_cases hp : p = .r7
  · subst hp
    rw [State.readReg_popReg, if_pos rfl, if_neg hq.symm, State.sp, hread, State.readReg_pushed, if_pos rfl,
      BitVec.sub_add_cancel]
    rfl
  · rw [State.readReg_popReg, if_neg hp]
    split
    · next h => rw [htop, State.top_pushed, if_neg hq, h]
    · rw [hread, State.readReg_pushed, if_neg hp]

/-- Up to 256 pushes undone in the opposite order restore the registers, and change no byte but the `rs.length` ones
just below SP. -/
theorem execAll_mirrored {rs : List Byte} (hlen : rs.length ≤ 256) (hrs : ∀ r ∈ rs, r.toNat < 7) (s : State) :
    ∃ t, execAll (rs.map .push ++ rs.reverse.map .pop) s = .next t ∧ t.regs = s.regs ∧
      ∀ a, (a - s.sp).toNat + rs.length < 256 → t.memRead a = s.memRead a := by
  induction rs generalizing s with
  | nil => exact ⟨s, rfl, rfl, fun _ _ => rfl⟩
  | cons r rs ih =>
    obtain ⟨hr, hrs⟩ := List.forall_mem_cons.mp hrs
    obtain ⟨q, hq⟩ := Reg.ofByte?_of_lt (Nat.lt_succ_of_lt hr)
    rw [List.length_cons] at hlen
    obtain ⟨u, hu, hregs, hmem⟩ := ih (Nat.le_of_succ_le hlen) hrs (s.pushed q)
    have hsp : u.sp = (s.pushed q).sp := congrArg (·.get .r7) hregs
    have htop : u.top = (s.pushed q).top := by
      rw [State.top, State.top, hsp]
      exact hmem _ (by rw [BitVec.sub_self, BitVec.toNat_zero]; omega)
    refine ⟨(u.popReg q).advance 2, ?run, State.regs_popReg_of_pushed (Reg.ne_r7_of_lt hq hr) hregs htop,
      fun a ha => ?frame⟩
    case run =>
      rw [List.map_cons, List.cons_append, execAll_cons (exec_push_pushed s hq), List.reverse_cons, List.map_append,
        ← List.append_assoc, execAll_append hu, List.map_singleton, execAll_cons (exec_pop_of_register u hq), execAll]
    case frame =>
      rw [List.length_cons] at ha
      have hne : a ≠ s.sp - 1 := by
        rintro rfl
        bv_omega
      have hdist : (a - (s.pushed q).sp).toNat + rs.length < 256 := by
        rw [State.sp_pushed]
        bv_omega
      rw [State.memRead_advance, State.memRead_popReg, hmem a hdist, State.memRead_pushed, if_neg hne]

/-- Settles O39: SP goes down and up by the same number, and mirrored pairs are undone from the inside out. -/
theorem pushesUndoneByPopsRestoreTheRegisters : Obligations.PushesUndoneByPopsRestoreTheRegisters := by
  refine ⟨fun s rs rs' hlen hrs hrs' => ?counted, fun s rs hlen hrs => ?mirrored⟩
  case counted =>
    obtain ⟨u, hu, hdown⟩ := execAll_pushes_sp hrs s
    obtain ⟨t, ht, hup⟩ := execAll_pops_sp hrs' u
    exact ⟨t, (execAll_append hu).trans ht, by rw [hup, hdown, hlen, BitVec.sub_add_cancel]⟩
  case mirrored =>
    obtain ⟨t, ht, hregs, -⟩ := execAll_mirrored hlen hrs s
    exact ⟨t, ht, hregs⟩

/-! ### Calls and frames -/

/-- Settles O40: RET pops the byte that CALL left at the top. -/
theorem retAfterCallResumesAfterTheCall : Obligations.RetAfterCallResumesAfterTheCall := by
  intro s u r q hq
  refine ⟨_, exec_call_of_register s hq, fun hsp hkept => ⟨_, exec_ret u, ?resume, ?spBack⟩⟩
  case resume =>
    rw [State.popPc_pc, zext9_toNat, State.top, hkept, State.sp_jump, State.sp_storeTop, State.memRead_jump,
      State.memRead_storeTop, if_pos rfl, State.returnByte_toNat]
  case spBack =>
    rw [State.sp_popPc, hsp, State.sp_jump, State.sp_storeTop, State.sp_decSp, BitVec.sub_add_cancel]

/-- Push bytes one after another, first to last. -/
def State.pushBytes (s : State) (vs : List Byte) : State := vs.foldl (fun u v => u.decSp.storeTop v) s

/-- The stack holds pushed bytes the last one first, so the laws speak of a list `vs` in the order of the pops. -/
theorem State.pushBytes_reverse_cons (s : State) (v : Byte) (vs : List Byte) :
    s.pushBytes (v :: vs).reverse = (s.pushBytes vs.reverse).decSp.storeTop v := by
  rw [State.pushBytes, List.reverse_cons, List.foldl_append, List.foldl_cons, List.foldl_nil, State.pushBytes]

theorem State.sp_pushBytes_reverse (s : State) (vs : List Byte) :
    (s.pushBytes vs.reverse).sp = s.sp - BitVec.ofNat 8 vs.length := by
  induction vs with
  | nil => exact (BitVec.sub_zero _).symm
  | cons v vs ih =>
    rw [State.pushBytes_reverse_cons, State.sp_storeTop, State.sp_decSp, ih, List.length_cons, BitVec.ofNat_add]
    bv_omega

/-- Up to 256 pushed bytes lie from SP up, the last one lowest. -/
theorem State.memRead_pushBytes_reverse (s : State) {vs : List Byte} (hlen : vs.length ≤ 256) {k : Nat} {v : Byte}
    (hk : vs[k]? = some v) :
    (s.pushBytes vs.reverse).memRead ((s.pushBytes vs.reverse).sp + BitVec.ofNat 8 k) = v := by
  induction vs generalizing k with
  | nil => cases hk
  | cons w vs ih =>
    rw [List.length_cons] at hlen
    rw [State.pushBytes_reverse_cons, State.sp_storeTop, State.sp_decSp, State.memRead_storeTop, State.sp_decSp]
    cases k with
    | zero =>
      rw [if_pos (BitVec.add_zero _)]
      exact Option.some.inj hk
    | succ k =>
      rw [List.getElem?_cons_succ] at hk
      obtain ⟨hlt, -⟩ := List.getElem?_eq_some_iff.mp hk
      have hne : (s.pushBytes vs.reverse).sp - 1 + BitVec.ofNat 8 (k + 1) ≠ (s.pushBytes vs.reverse).sp - 1 := by
        bv_omega
      have haddr : (s.pushBytes vs.reverse).sp - 1 + BitVec.ofNat 8 (k + 1) =
          (s.pushBytes vs.reverse).sp + BitVec.ofNat 8 k := by
        bv_omega
      rw [if_neg hne, haddr, State.memRead_decSp]
      exact ih (Nat.le_of_succ_le hlen) hk

/-- The bytes of an interrupt frame from SP up (45_interrupt.md R162); software pushes them from the last one back. -/
def frameBytes (target fl x0 x1 x2 x3 x4 x5 x6 : Byte) : List Byte := [x6, x5, x4, x3, x2, x1, x0, fl, target]

/-- Settles O41: the nine bytes lie from SP up in the order in which IRET pops them. -/
theorem iretUndoesASoftwareBuiltFrame : Obligations.IretUndoesASoftwareBuiltFrame := by
  intro s target fl x0 x1 x2 x3 x4 x5 x6
  obtain ⟨u, hu⟩ : ∃ u, u = s.pushBytes (frameBytes target fl x0 x1 x2 x3 x4 x5 x6).reverse := ⟨_, rfl⟩
  have pushed : ∀ k v, (frameBytes target fl x0 x1 x2 x3 x4 x5 x6)[k]? = some v →
      u.memRead (u.sp + BitVec.ofNat 8 k) = v := fun k v hk =>
    hu ▸ s.memRead_pushBytes_reverse (vs := frameBytes target fl x0 x1 x2 x3 x4 x5 x6) (by simp [frameBytes]) hk
  have place := u.readReg_restoreFrame
  refine ⟨u.restoreFrame, hu ▸ exec_iret u, (place .r0).trans (pushed 6 x0 rfl), (place .r1).trans (pushed 5 x1 rfl),
    (place .r2).trans (pushed 4 x2 rfl), (place .r3).trans (pushed 3 x3 rfl), (place .r4).trans (pushed 2 x4 rfl),
    (place .r5).trans (pushed 1 x5 rfl), (place .r6).trans ?top, u.restoreFrame_fl.trans (pushed 7 fl rfl), ?pc, ?sp⟩
  case top => exact (congrArg u.memRead (BitVec.add_zero u.sp)).symm.trans (pushed 0 x6 rfl)
  case pc => rw [State.restoreFrame_pc, zext9_toNat, ← pushed 8 target rfl]; rfl
  case sp =>
    rw [State.sp_restoreFrame, hu, State.sp_pushBytes_reverse]
    exact BitVec.sub_add_cancel s.sp 9

end Sys2Proof.Machine

/-! IM and IS are registers like any other: nothing looks at them on its own (40_execution_cycle.md section 2). -/

namespace Sys2Proof.Machine

/-- The state with other values in IM and IS (10_state.md R29, R30). -/
def State.setInterruptRegs (s : State) (im is : Byte) : State := (s.writeReg .r5 im).writeReg .r6 is

section Commutes

variable (s : State) (im is : Byte)

/-- Fetch looks at memory and the program counter only. -/
theorem State.fetch_setInterruptRegs (m : OpcodeMap) : (s.setInterruptRegs im is).fetch m = s.fetch m := rfl

theorem State.readReg_setInterruptRegs {q : Reg} (h5 : q ≠ .r5) (h6 : q ≠ .r6) :
    (s.setInterruptRegs im is).readReg q = s.readReg q := by
  rw [State.setInterruptRegs, State.readReg_writeReg, if_neg h6, State.readReg_writeReg, if_neg h5]

theorem RegFile.set_comm (f : RegFile) {p q : Reg} (h : p ≠ q) (v w : Byte) :
    (f.set p v).set q w = (f.set q w).set p v := by
  refine RegFile.ext_get _ _ fun r => ?_
  simp only [RegFile.get_set]
  split <;> split <;> simp_all

theorem State.writeReg_comm {p q : Reg} (h : p ≠ q) (v w : Byte) :
    (s.writeReg p v).writeReg q w = (s.writeReg q w).writeReg p v :=
  congrArg (fun f => { s with regs := f }) (s.regs.set_comm h v w)

theorem State.writeReg_setInterruptRegs {q : Reg} (h5 : q ≠ .r5) (h6 : q ≠ .r6) (v : Byte) :
    (s.setInterruptRegs im is).writeReg q v = (s.writeReg q v).setInterruptRegs im is := by
  rw [State.setInterruptRegs, State.writeReg_comm _ h6.symm, State.writeReg_comm _ h5.symm, State.setInterruptRegs]

theorem State.decSp_setInterruptRegs : (s.setInterruptRegs im is).decSp = s.decSp.setInterruptRegs im is :=
  s.writeReg_setInterruptRegs im is (by decide) (by decide) _

theorem State.incSp_setInterruptRegs : (s.setInterruptRegs im is).incSp = s.incSp.setInterruptRegs im is :=
  s.writeReg_setInterruptRegs im is (by decide) (by decide) _

theorem State.popReg_setInterruptRegs {q : Reg} (h5 : q ≠ .r5) (h6 : q ≠ .r6) :
    (s.setInterruptRegs im is).popReg q = (s.popReg q).setInterruptRegs im is := by
  rw [State.popReg, State.writeReg_setInterruptRegs s im is h5 h6, State.incSp_setInterruptRegs]
  rfl

theorem State.popPc_setInterruptRegs : (s.setInterruptRegs im is).popPc = s.popPc.setInterruptRegs im is :=
  (s.jump s.top).incSp_setInterruptRegs im is

end Commutes

/-- An instruction other than IRET that names neither IM nor IS does the same whatever they hold. -/
theorem Ran.setInterruptRegs {i : Instr} {s t : State} (h : Ran s i t) (hi : i ≠ .iret)
    (hf : ∀ f ∈ i.registerFields, f.2.toNat ≠ 5 ∧ f.2.toNat ≠ 6) (im is : Byte) :
    exec i (s.setInterruptRegs im is) = .next (t.setInterruptRegs im is) := by
  have names : ∀ {f : OperandField} {b : Byte} {q : Reg}, (f, b) ∈ i.registerFields → Reg.ofByte? b = some q →
      q ≠ .r5 ∧ q ≠ .r6 := fun hmem hq =>
    ⟨Reg.ne_of_ofByte? hq (hf _ hmem).1, Reg.ne_of_ofByte? hq (hf _ hmem).2⟩
  cases h with
  | hlt | int => rfl
  | iret => exact absurd rfl hi
  | ret => exact congrArg Host.Outcome.next (s.popPc_setInterruptRegs im is)
  | illegal hfield => exact exec_of_illegalField hfield _
  | ldi hq | prn hq | pra hq | push hq | pop hq | call hq | jmp hq =>
    obtain ⟨h5, h6⟩ := names (.head _) hq
    refine (withReg_some hq).trans (congrArg Host.Outcome.next ?_)
    simp only [State.decSp_setInterruptRegs, State.readReg_setInterruptRegs _ im is h5 h6,
      State.writeReg_setInterruptRegs s im is h5 h6, State.popReg_setInterruptRegs s im is h5 h6]
    rfl
  | mul hp hq | add hp hq | st hp hq =>
    obtain ⟨p5, p6⟩ := names (.head _) hp
    obtain ⟨q5, q6⟩ := names (.tail _ (.head _)) hq
    refine (withRegs_some hp hq).trans (congrArg Host.Outcome.next ?_)
    simp only [State.readReg_setInterruptRegs s im is p5 p6, State.readReg_setInterruptRegs s im is q5 q6,
      State.writeReg_setInterruptRegs s im is p5 p6]
    rfl

/-- Settles O37: the engine's choice depends on `run` and on fetch, neither of which looks at IM or IS, and then the
instruction does not either. -/
theorem interruptRegistersAreInert : Obligations.InterruptRegistersAreInert := by
  intro m s im is
  have hfetch : (s.setInterruptRegs im is).fetch m = s.fetch m := s.fetch_setInterruptRegs im is m
  refine ⟨hfetch, fun hnames => ?_⟩
  rcases engine_cases m s with ⟨hs, e⟩ | ⟨hs, f, hf, e⟩ | ⟨hs, i, hi, e⟩
  · exact ⟨s, e, engine_halted hs⟩
  · have hs' : (s.setInterruptRegs im is).run = .running := hs
    exact ⟨s.takeFault f, e, (engine_running hs').trans (cycle_error (hfetch.trans hf))⟩
  · have hs' : (s.setInterruptRegs im is).run = .running := hs
    obtain ⟨t, ht⟩ := exec_total i s
    obtain ⟨hne, hfields⟩ := hnames i hi
    exact ⟨t, e.trans ht,
      (engine_of_fetch hs' (hfetch.trans hi)).trans ((exec_ran ht).setInterruptRegs hne hfields im is)⟩

end Sys2Proof.Machine

/-! Memory as the place of instructions: stored code, the load step, and table words (20_memory.md section 5,
70_reset_and_hazards.md). -/

namespace Sys2Proof.Machine

/-- Settles O42: the byte that ST wrote at the next program counter is a whole encoding. -/
theorem storedInstructionRunsInTheNextCycle : Obligations.StoredInstructionRunsInTheNextCycle := by
  intro m s a b i j next hs hst hi hj haddr hnext
  have hpc : s.pc.toNat < 256 := State.fetch_ok_pc_lt (State.fetch_ok.mpr hst)
  have hadvance : (s.advance 3).pc.toNat = (s.readReg i).toNat :=
    (State.advance_pc_toNat hpc (by decide)).trans haddr.symm
  refine ⟨_, (engine_of_holdsAtPc hs hst).trans (exec_st_of_registers s hi hj), engine_of_holdsAtPc hs ?_⟩
  intro k hk
  obtain rfl : k = 0 := by simpa [hnext] using hk
  simp only [Nat.add_zero, hnext, List.getElem_cons_zero, State.advance_mem, State.memWrite_mem, Memory.read_write]
  exact ⟨hadvance ▸ (s.readReg i).isLt, if_pos hadvance⟩

/-! ### The load step -/

theorem State.load_eq_some {s : State} {image : List Byte} (h : image.length ≤ 256) :
    s.load image = some { s with mem := s.mem.writeFrom 0 image } :=
  if_pos h

theorem State.Inv.load {m : OpcodeMap} {s t : State} {image : List Byte} (h : s.Inv m) (hs : s.fault = none)
    (ht : s.load image = some t) (hlen : image.length ≤ 256) : t.Inv m := by
  have hmem := State.load_wf h.mem_wf ht
  cases (State.load_eq_some hlen).symm.trans ht
  exact State.inv_of_no_fault hmem h.pc_le hs

/-- Settles O46: the writes are those of the image at addresses 0, 1, ..., all below 256. -/
theorem loadWritesOnlyTheImage : Obligations.LoadWritesOnlyTheImage := by
  refine fun s image => ⟨fun h => if_neg (Nat.not_le.mpr h), fun hlen =>
    ⟨_, State.load_eq_some hlen, fun a => ?bytes, rfl, fun m h hs => h.load hs (State.load_eq_some hlen) hlen⟩⟩
  case bytes =>
    change (s.mem.writeFrom 0 image).read a.toNat = _
    rw [Memory.read_writeFrom, Nat.sub_zero]
    by_cases ha : a.toNat < image.length
    · rw [dif_pos ⟨Nat.zero_le _, ha⟩, List.getElem?_eq_getElem ha, Option.getD_some]
    · rw [dif_neg fun h => ha h.2, List.getElem?_eq_none (Nat.le_of_not_lt ha), Option.getD_none, State.memRead]

theorem core_run_keeps_inv (k : Nat) {s : State} (h : s.Inv defaultOpcodeMap) :
    ∃ t, Host.Core.run core k s = .next t ∧ t.Inv defaultOpcodeMap := by
  induction k generalizing s with
  | zero => exact ⟨s, rfl, h⟩
  | succ k ih =>
    obtain ⟨u, hu⟩ := everyStepAnswersANextState defaultOpcodeMap s
    have hstep : core.step s = .next u := hu
    simp only [Host.Core.run, hstep]
    exact ih (engine_keeps_inv h hu)

/-- Settles O47: the loaded state meets the invariant, and every step keeps it. -/
theorem runsFromALoadedImageMeetTheInvariant : Obligations.RunsFromALoadedImageMeetTheInvariant := by
  intro image hlen
  have hload := State.load_eq_some (s := State.reset) hlen
  exact ⟨_, hload, fun k => core_run_keeps_inv k ((resetMeetsTheInvariant defaultOpcodeMap).load rfl hload hlen)⟩

/-! ### Table words -/

/-- The bytes of a table word that decodes begin with the encoding of its instruction. -/
theorem encode_prefix_of_decodeTableWord {nbits w : Nat} {i : Instr} (h : decodeTableWord nbits w = some i) :
    encode i <+: tableBytes nbits w := by
  unfold decodeTableWord at h
  split at h
  · next j rest hdecode =>
    cases h
    exact ⟨rest, (decodeWith_ok_iff_encodeWith.mp hdecode).symm⟩
  · cases h

theorem State.placeAtFetch_fits (s : State) {bytes : List Byte} (h : bytes.length ≤ 256) :
    (s.placeAtFetch bytes).pc.toNat + bytes.length ≤ 256 := by
  unfold State.placeAtFetch
  dsimp only
  split
  · assumption
  · simpa using h

/-- Placed bytes stand at the program counter. -/
theorem State.read_placeAtFetch (s : State) (bytes : List Byte) {k : Nat} (hk : k < bytes.length) :
    (s.placeAtFetch bytes).mem.read ((s.placeAtFetch bytes).pc.toNat + k) = bytes[k] := by
  refine (Memory.read_writeFrom bytes s.mem _ _).trans ?_
  rw [dif_pos ⟨Nat.le_add_right _ _, by rwa [State.placeAtFetch, Nat.add_sub_cancel_left]⟩]
  simp only [State.placeAtFetch, Nat.add_sub_cancel_left]

theorem State.holdsAtPc_placeAtFetch (s : State) {m : OpcodeMap} {i : Instr} {bytes : List Byte}
    (h : encodeWith m i <+: bytes) (hlen : bytes.length ≤ 256) : (s.placeAtFetch bytes).HoldsAtPc m i := by
  intro k hk
  have hk' : k < bytes.length := Nat.lt_of_lt_of_le hk h.length_le
  have hfits := s.placeAtFetch_fits hlen
  exact ⟨by omega, (s.read_placeAtFetch bytes hk').trans (h.getElem hk).symm⟩

/-- Settles O48: the placed word begins with an encoding, and all its bytes are below address 256. -/
theorem placedTableWordRunsNext : Obligations.PlacedTableWordRunsNext := by
  intro s nbits w i hw
  have hlen : (tableBytes nbits w).length ≤ 256 := by simp [tableBytes]
  have hholds := s.holdsAtPc_placeAtFetch (encode_prefix_of_decodeTableWord hw) hlen
  exact ⟨engine_of_holdsAtPc rfl hholds, fun hwf => State.placeAtFetch_wf hwf hlen⟩

end Sys2Proof.Machine
